-- ==== Sys2Proof/Word.lean ====
section
/-! DEFINITION. The widths of the machine's values (00_scope.md R8, R10). Every value is unsigned; bit 0 is the
least significant bit, and `a ++ b` puts `a` in the high bits. -/

namespace Sys2Proof

/-- A byte of memory, a data register, a timer. -/
abbrev Byte := BitVec 8

/-- A 16-bit value: an instruction word, `pc`, `I`, a stack entry. -/
abbrev Word := BitVec 16

/-- A 12-bit instruction field `nnn`. -/
abbrev Addr12 := BitVec 12

/-- A 4-bit instruction field: a register index, a count or a function code. -/
abbrev Nibble := BitVec 4

/-- A register index: 4 bits, so it names every register and nothing else (10_state.md R20). -/
abbrev Reg := Nibble

/-- `VF`, register 15, the flag output (10_state.md R21). -/
abbrev VF : Reg := 15#4

/-- `V0`, the offset register of `JP V0,nnn` (10_state.md R22). -/
abbrev V0 : Reg := 0#4

end Sys2Proof
end

