-- ==== Sys2Proof/Decode.lean ====
section
/-! DEFINITION. Decoding (30_encoding.md R70 to R78) and, after it, the encoder written from the same formats. The
numeric patterns are the spec's own, marked there as general knowledge (D2, log entry 4). -/

namespace Sys2Proof

/-! ### Fields of the instruction word (00_scope.md R11, 30_encoding.md R72) -/

/-- `op[15:12]`, the major opcode. -/
def majorOf (w : Word) : Nibble := w.extractLsb' 12 4

/-- `x = op[11:8]`. -/
def xOf (w : Word) : Reg := w.extractLsb' 8 4

/-- `y = op[7:4]`. -/
def yOf (w : Word) : Reg := w.extractLsb' 4 4

/-- `n = op[3:0]`, also the function code `f4` of format `XY`. -/
def nOf (w : Word) : Nibble := w.extractLsb' 0 4

/-- `kk = op[7:0]`, also the function code `f8` of format `XF`. -/
def kkOf (w : Word) : Byte := w.extractLsb' 0 8

/-- `nnn = op[11:0]`. -/
def nnnOf (w : Word) : Addr12 := w.extractLsb' 0 12

/-! ### The decoder: the primary decode of R74 -/

/-- Major 0x0: `CLS`, `RET`; every other word is unrecognized. -/
def decodeMajor0 (w : Word) : Instr :=
  if w = 0x00E0#16 then .cls else if w = 0x00EE#16 then .ret else .nop w

/-- Major 0x8: by `op[3:0]`. -/
def decodeMajor8 (w : Word) : Instr :=
  match nOf w with
  | 0x0#4 => .ldReg (xOf w) (yOf w)
  | 0x1#4 => .orReg (xOf w) (yOf w)
  | 0x2#4 => .andReg (xOf w) (yOf w)
  | 0x3#4 => .xorReg (xOf w) (yOf w)
  | 0x4#4 => .addReg (xOf w) (yOf w)
  | 0x5#4 => .subReg (xOf w) (yOf w)
  | 0x6#4 => .shr (xOf w) (yOf w)
  | 0x7#4 => .subn (xOf w) (yOf w)
  | 0xE#4 => .shl (xOf w) (yOf w)
  | _ => .nop w

/-- Major 0xE: by `op[7:0]`. -/
def decodeMajorE (w : Word) : Instr :=
  match kkOf w with
  | 0x9E#8 => .skp (xOf w)
  | 0xA1#8 => .sknp (xOf w)
  | _ => .nop w

/-- Major 0xF: by `op[7:0]`. -/
def decodeMajorF (w : Word) : Instr :=
  match kkOf w with
  | 0x07#8 => .ldVxDt (xOf w)
  | 0x0A#8 => .ldVxK (xOf w)
  | 0x15#8 => .ldDtVx (xOf w)
  | 0x18#8 => .ldStVx (xOf w)
  | 0x1E#8 => .addI (xOf w)
  | 0x29#8 => .ldF (xOf w)
  | 0x33#8 => .ldB (xOf w)
  | 0x55#8 => .stRegs (xOf w)
  | 0x65#8 => .ldRegs (xOf w)
  | _ => .nop w

/-- The decoder, total on all 65536 words (R73): a word that matches no row is `nop` (R77). -/
def decodeWord (w : Word) : Instr :=
  match majorOf w with
  | 0x0#4 => decodeMajor0 w
  | 0x1#4 => .jp (nnnOf w)
  | 0x2#4 => .call (nnnOf w)
  | 0x3#4 => .seImm (xOf w) (kkOf w)
  | 0x4#4 => .sneImm (xOf w) (kkOf w)
  | 0x5#4 => if nOf w = 0#4 then .seReg (xOf w) (yOf w) else .nop w
  | 0x6#4 => .ldImm (xOf w) (kkOf w)
  | 0x7#4 => .addImm (xOf w) (kkOf w)
  | 0x8#4 => decodeMajor8 w
  | 0x9#4 => if nOf w = 0#4 then .sneReg (xOf w) (yOf w) else .nop w
  | 0xA#4 => .ldI (nnnOf w)
  | 0xB#4 => .jpV0 (nnnOf w)
  | 0xC#4 => .rnd (xOf w) (kkOf w)
  | 0xD#4 => .drw (xOf w) (yOf w) (nOf w)
  | 0xE#4 => decodeMajorE w
  | _ => decodeMajorF w

/-- Why bytes are no instruction. -/
inductive DecodeReject where
  /-- Fewer than the two bytes of an instruction (R70). -/
  | truncated
  deriving DecidableEq, Repr

/-- An instruction word from its two bytes, the high byte first (20_memory.md R53). -/
def wordOfBytes (hi lo : Byte) : Word := hi ++ lo

/-- Decodes the first instruction of a list of bytes and gives the rest of the list. -/
def decodeBytes : List Byte → Except DecodeReject (Instr × List Byte)
  | hi :: lo :: rest => .ok (decodeWord (wordOfBytes hi lo), rest)
  | _ => .error .truncated

/-- The two bytes of an instruction word as memory holds them, low address first (R53). -/
def bytesOfWord (w : Word) : List Byte := [w.extractLsb' 8 8, w.extractLsb' 0 8]

/-- The word that a row's `nbits` low bits `w` stand for: every bit above them is 0. -/
def tableWord (nbits w : Nat) : Word := BitVec.ofNat 16 (w % 2 ^ nbits)

/-- What the decoder reads from a row of the opcode table laid out in memory. -/
def decodeTableWord (nbits w : Nat) : Option Instr :=
  match decodeBytes (bytesOfWord (tableWord nbits w)) with
  | .ok (i, _) => some i
  | .error _ => none

/-! ### The encoder: the formats of R71 with the patterns of R74 -/

/-- Format `NNN`: major opcode and a 12-bit address. -/
def formatNNN (m : Nibble) (nnn : Addr12) : Word := m ++ nnn

/-- Format `XKK`: major opcode, register, 8-bit immediate; also `XF` with its function code. -/
def formatXKK (m : Nibble) (x : Reg) (kk : Byte) : Word := m ++ x ++ kk

/-- Format `XY` with its function code; also `XYN` with its count. -/
def formatXYN (m : Nibble) (x y : Reg) (n : Nibble) : Word := m ++ x ++ y ++ n

/-- The word of a well-formed instruction. -/
def encode : Instr → Word
  | .cls => 0x00E0#16
  | .ret => 0x00EE#16
  | .jp nnn => formatNNN 0x1#4 nnn
  | .call nnn => formatNNN 0x2#4 nnn
  | .seImm x kk => formatXKK 0x3#4 x kk
  | .sneImm x kk => formatXKK 0x4#4 x kk
  | .seReg x y => formatXYN 0x5#4 x y 0x0#4
  | .ldImm x kk => formatXKK 0x6#4 x kk
  | .addImm x kk => formatXKK 0x7#4 x kk
  | .ldReg x y => formatXYN 0x8#4 x y 0x0#4
  | .orReg x y => formatXYN 0x8#4 x y 0x1#4
  | .andReg x y => formatXYN 0x8#4 x y 0x2#4
  | .xorReg x y => formatXYN 0x8#4 x y 0x3#4
  | .addReg x y => formatXYN 0x8#4 x y 0x4#4
  | .subReg x y => formatXYN 0x8#4 x y 0x5#4
  | .shr x y => formatXYN 0x8#4 x y 0x6#4
  | .subn x y => formatXYN 0x8#4 x y 0x7#4
  | .shl x y => formatXYN 0x8#4 x y 0xE#4
  | .sneReg x y => formatXYN 0x9#4 x y 0x0#4
  | .ldI nnn => formatNNN 0xA#4 nnn
  | .jpV0 nnn => formatNNN 0xB#4 nnn
  | .rnd x kk => formatXKK 0xC#4 x kk
  | .drw x y n => formatXYN 0xD#4 x y n
  | .skp x => formatXKK 0xE#4 x 0x9E#8
  | .sknp x => formatXKK 0xE#4 x 0xA1#8
  | .ldVxDt x => formatXKK 0xF#4 x 0x07#8
  | .ldVxK x => formatXKK 0xF#4 x 0x0A#8
  | .ldDtVx x => formatXKK 0xF#4 x 0x15#8
  | .ldStVx x => formatXKK 0xF#4 x 0x18#8
  | .addI x => formatXKK 0xF#4 x 0x1E#8
  | .ldF x => formatXKK 0xF#4 x 0x29#8
  | .ldB x => formatXKK 0xF#4 x 0x33#8
  | .stRegs x => formatXKK 0xF#4 x 0x55#8
  | .ldRegs x => formatXKK 0xF#4 x 0x65#8
  | .nop w => w

/-! ### The opcode table as data (R74) and the unrecognized words as listed (R78) -/

/-- A row of the table of R74: its number, and the mask and match that select it. -/
structure OpcodeRow where
  number : Nat
  mask : Word
  pattern : Word
  deriving DecidableEq, Repr

/-- A word selects a row when `(op & mask) = match` (R73). -/
def OpcodeRow.selects (r : OpcodeRow) (w : Word) : Bool := decide (w &&& r.mask = r.pattern)

/-- Rows 1 to 17 of R74. -/
def opcodeRowsLow : List OpcodeRow := [
  ⟨1, 0xFFFF, 0x00E0⟩, ⟨2, 0xFFFF, 0x00EE⟩, ⟨3, 0xF000, 0x1000⟩, ⟨4, 0xF000, 0x2000⟩, ⟨5, 0xF000, 0x3000⟩,
  ⟨6, 0xF000, 0x4000⟩, ⟨7, 0xF00F, 0x5000⟩, ⟨8, 0xF000, 0x6000⟩, ⟨9, 0xF000, 0x7000⟩, ⟨10, 0xF00F, 0x8000⟩,
  ⟨11, 0xF00F, 0x8001⟩, ⟨12, 0xF00F, 0x8002⟩, ⟨13, 0xF00F, 0x8003⟩, ⟨14, 0xF00F, 0x8004⟩, ⟨15, 0xF00F, 0x8005⟩,
  ⟨16, 0xF00F, 0x8006⟩, ⟨17, 0xF00F, 0x8007⟩]

/-- Rows 18 to 34 of R74. -/
def opcodeRowsHigh : List OpcodeRow := [
  ⟨18, 0xF00F, 0x800E⟩, ⟨19, 0xF00F, 0x9000⟩, ⟨20, 0xF000, 0xA000⟩, ⟨21, 0xF000, 0xB000⟩, ⟨22, 0xF000, 0xC000⟩,
  ⟨23, 0xF000, 0xD000⟩, ⟨24, 0xF0FF, 0xE09E⟩, ⟨25, 0xF0FF, 0xE0A1⟩, ⟨26, 0xF0FF, 0xF007⟩, ⟨27, 0xF0FF, 0xF00A⟩,
  ⟨28, 0xF0FF, 0xF015⟩, ⟨29, 0xF0FF, 0xF018⟩, ⟨30, 0xF0FF, 0xF01E⟩, ⟨31, 0xF0FF, 0xF029⟩, ⟨32, 0xF0FF, 0xF033⟩,
  ⟨33, 0xF0FF, 0xF055⟩, ⟨34, 0xF0FF, 0xF065⟩]

/-- The 34 rows of R74. -/
def opcodeTable : List OpcodeRow := opcodeRowsLow ++ opcodeRowsHigh

/-- The number of an instruction's row in R74; 0 for `nop`, which has none. -/
def rowNumber : Instr → Nat
  | .cls => 1
  | .ret => 2
  | .jp _ => 3
  | .call _ => 4
  | .seImm _ _ => 5
  | .sneImm _ _ => 6
  | .seReg _ _ => 7
  | .ldImm _ _ => 8
  | .addImm _ _ => 9
  | .ldReg _ _ => 10
  | .orReg _ _ => 11
  | .andReg _ _ => 12
  | .xorReg _ _ => 13
  | .addReg _ _ => 14
  | .subReg _ _ => 15
  | .shr _ _ => 16
  | .subn _ _ => 17
  | .shl _ _ => 18
  | .sneReg _ _ => 19
  | .ldI _ => 20
  | .jpV0 _ => 21
  | .rnd _ _ => 22
  | .drw _ _ _ => 23
  | .skp _ => 24
  | .sknp _ => 25
  | .ldVxDt _ => 26
  | .ldVxK _ => 27
  | .ldDtVx _ => 28
  | .ldStVx _ => 29
  | .addI _ => 30
  | .ldF _ => 31
  | .ldB _ => 32
  | .stRegs _ => 33
  | .ldRegs _ => 34
  | .nop _ => 0

/-- The low bytes that R74 gives an instruction under major 0xE. -/
def functionsE : List Byte := [0x9E, 0xA1]

/-- The low bytes that R74 gives an instruction under major 0xF. -/
def functionsF : List Byte := [0x07, 0x0A, 0x15, 0x18, 0x1E, 0x29, 0x33, 0x55, 0x65]

/-- The function codes that R74 gives an instruction under major 0x8. -/
def functions8 : List Nibble := [0x0, 0x1, 0x2, 0x3, 0x4, 0x5, 0x6, 0x7, 0xE]

/-- The unrecognized words, row by row as R78 lists them. -/
def unrecognized (w : Word) : Bool :=
  (majorOf w == 0x0 && w != 0x00E0 && w != 0x00EE)
  || (majorOf w == 0x5 && nOf w != 0)
  || (majorOf w == 0x8 && !functions8.contains (nOf w))
  || (majorOf w == 0x9 && nOf w != 0)
  || (majorOf w == 0xE && !functionsE.contains (kkOf w))
  || (majorOf w == 0xF && !functionsF.contains (kkOf w))

end Sys2Proof
end

