-- ==== Sys2Proof/Config.lean ====
section
/-! DEFINITION. What an implementation fixes (00_scope.md R8), the events of the interface (R5) and the two free values
of the machine: the random bytes and the order of events. The font bytes (R56) stand in Machine/Font.lean. -/

namespace Sys2Proof.Machine

/-- The interface events (00_scope.md R5). `keySet` has a 4-bit symbol, since the interface has no other (R214). -/
inductive Event where
  /-- Execute one instruction (R90). -/
  | step
  /-- Decrement each nonzero timer (R210). -/
  | tick
  /-- Set key flag `k` to `b` (R214). -/
  | keySet (k : Nibble) (b : Bool)
  /-- The reset event (R230). -/
  | reset
  /-- Reset, then copy a program image to 0x200 (R232). -/
  | load (image : List Byte)
  /-- Read the bitmap; changes nothing (R213). -/
  | fbRead
  deriving DecidableEq, Repr, Inhabited

end Sys2Proof.Machine

namespace Sys2Proof.Config

/-- `MEM_SIZE` (R8): an address is valid exactly when it is below this (R50). -/
abbrev memSize : Nat := 4096

/-- `PROG_BASE` (R8): where `load` copies the image and where `pc` starts. -/
abbrev progBase : Nat := 0x200

/-- `PROG_MAX` (R8): how many image bytes fit from `progBase` on. -/
abbrev progMax : Nat := 3584

/-- `STACK_DEPTH` (R8). -/
abbrev stackDepth : Nat := 16

/-- `DISP_W` (R8): columns of the display. -/
abbrev dispW : Nat := 64

/-- `DISP_H` (R8): rows of the display. -/
abbrev dispH : Nat := 32

/-- `GLYPH_SIZE` (R8): bytes of one font glyph. -/
abbrev glyphSize : Nat := 5

/-- The random bytes of `RND` (R40, R131): the `n`-th draw is `rnd n`. A FREE VALUE: it has no body, so nothing can
be proved of any draw, and what is proved holds for every sequence (log entry 1). -/
opaque rnd : Nat → Byte

/-- The order in which the driver presents events (R6, R211): the `n`-th event of an endless sequence. A FREE VALUE:
it has no body, so nothing can be proved of any event's kind, and what is proved holds for every endless interleaving
(log entry 2). -/
opaque event : Nat → Machine.Event

end Sys2Proof.Config
end

