-- ==== Sys2Proof/Machine/Font.lean ====
section
/-! DEFINITION. The built-in font (20_memory.md R56): 16 glyphs of 5 rows, glyph `d` at `5*d`. The source gives no
bytes; the table is the spec's own, from general knowledge (D4, log entry 5). -/

namespace Sys2Proof.Machine

/-- Glyphs 0 to 7. -/
def fontLow : List Byte := [
  0xF0, 0x90, 0x90, 0x90, 0xF0,
  0x20, 0x60, 0x20, 0x20, 0x70,
  0xF0, 0x10, 0xF0, 0x80, 0xF0,
  0xF0, 0x10, 0xF0, 0x10, 0xF0,
  0x90, 0x90, 0xF0, 0x10, 0x10,
  0xF0, 0x80, 0xF0, 0x10, 0xF0,
  0xF0, 0x80, 0xF0, 0x90, 0xF0,
  0xF0, 0x10, 0x20, 0x40, 0x40]

/-- Glyphs 8 to F. -/
def fontHigh : List Byte := [
  0xF0, 0x90, 0xF0, 0x90, 0xF0,
  0xF0, 0x90, 0xF0, 0x10, 0xF0,
  0xF0, 0x90, 0xF0, 0x90, 0x90,
  0xE0, 0x90, 0xE0, 0x90, 0xE0,
  0xF0, 0x80, 0x80, 0x80, 0xF0,
  0xE0, 0x90, 0x90, 0x90, 0xE0,
  0xF0, 0x80, 0xF0, 0x80, 0xF0,
  0xF0, 0x80, 0xF0, 0x80, 0x80]

/-- `FONT`, 80 bytes (R56). -/
def font : List Byte := fontLow ++ fontHigh

/-- What memory holds at an address after `reset` (R41, R230): the font, then zeros. It is what an address that the
state does not list reads as. -/
def resetByte (a : Nat) : Byte := font.getD a 0

end Sys2Proof.Machine
end

