-- ==== Sys2Proof/Machine/State.lean ====
section
/-! DEFINITION. The state of the machine (10_state.md R20 to R44), as plain data, and the reasons a step can stop.
The spec's state is the tuple at the head of 10_state.md; `draws`, `driver` and `schedule` are the model's own (log
entries 1 and 2). -/

namespace Sys2Proof.Machine

/-- The cause field of the fault latch (10_state.md R31, 60_exceptions.md R190), codes 0 to 5 in this order. -/
inductive Cause where
  /-- No fault, code 0. -/
  | none
  /-- A fetch at `pc0 >= 4095`, code 1 (R191). -/
  | fetchFault
  /-- A data access whose range is not wholly below 4096, code 2 (R192). -/
  | dataFault
  /-- `CALL` with 16 live entries, code 3 (R193). -/
  | stackOverflow
  /-- `RET` with no live entry, code 4 (R194). -/
  | stackUnderflow
  /-- `SKP` or `SKNP` with a symbol above 15, code 5 (R195). -/
  | invalidKey
  deriving DecidableEq, Repr

/-- The fault latch (R31): the cause, the `pc0` and the word of the faulting step. -/
structure FaultLatch where
  cause : Cause
  fpc : Word
  fop : Word
  deriving DecidableEq, Repr

/-- The latch with no fault recorded (R41). -/
def FaultLatch.clear : FaultLatch := ⟨.none, 0, 0⟩

/-- What the driver presents once no listed event waits (R6). MODEL'S OWN (log entry 2). -/
inductive Schedule where
  /-- `step` events and no other. -/
  | stepsOnly
  /-- The free sequence of events from its `n`-th on, without end: `Config.event n`, then `Config.event (n + 1)`. -/
  | free (n : Nat)
  deriving DecidableEq, Repr

/-- The memory image (R32, 20_memory.md R50) in one canonical form: the (address, byte) pairs of the bytes that
differ from their reset contents, addresses strictly rising. The operations and the predicate `Memory.wf` are in
Machine/Ops.lean. -/
abbrev Memory := List Host.Cell

/-- The display bitmap (R33): 32 rows of 64 pixels, 1 = on. Column 0 of a row is its most significant bit
(log entry 11). -/
abbrev Bitmap := Vector (BitVec 64) 32

/-- The whole state (head of 10_state.md). -/
structure State where
  /-- `V[0]` to `V[15]` (R20); `V[15]` is `VF` (R21). -/
  v : Vector Byte 16
  /-- The index register `I` (R23). -/
  i : Word
  /-- The program counter (R24). -/
  pc : Word
  /-- The return addresses (R27). -/
  stack : Vector Word 16
  /-- The number of live stack entries, 0 to 16 (R28). -/
  sp : Fin 17
  /-- The delay timer (R29). -/
  dt : Byte
  /-- The sound timer (R30). -/
  st : Byte
  /-- The memory image (R32). -/
  mem : Memory
  /-- The display bitmap (R33). -/
  fb : Bitmap
  /-- The key flags, true = pressed (R34). -/
  key : Vector Bool 16
  /-- The fault latch (R31). -/
  fault : FaultLatch
  /-- MODEL'S OWN (log entry 1): how many random bytes `RND` has drawn. -/
  draws : Nat
  /-- MODEL'S OWN (log entry 2): the events the driver presents next, oldest first (R6). -/
  driver : List Event
  /-- MODEL'S OWN (log entry 2): what the driver presents after them (R6). -/
  schedule : Schedule
  deriving DecidableEq, Repr

/-- Why a step ends in a fault outcome. Each of the spec's five faults has an entry the spec describes (R197: the
latch is written and nothing else), so a step TAKES it as a next state and this type stays unused (log entry 3). -/
inductive Fault where
  /-- Raised by no instruction and no event of this model: it would report a fault of the spec without its latched
  state. SAFE: it could only stop a run. -/
  | unlatched (c : Cause)
  deriving DecidableEq, Repr

/-- Why a step is refused. -/
inductive Refusal where
  /-- Raised by an arm of `exec` whose instruction has no meaning yet; there is none today. SAFE: it stops the run. -/
  | notModelled (mnemonic : String)
  deriving DecidableEq, Repr

/-- What a step or a meaning answers. -/
abbrev Result := Host.Outcome State Fault Refusal

/-- The state at power-on: the reset state of R41 with every key released (R42, R231). -/
def State.reset : State where
  v := Vector.replicate 16 0
  i := 0
  pc := 0x0200
  stack := Vector.replicate 16 0
  sp := 0
  dt := 0
  st := 0
  mem := []
  fb := Vector.replicate 32 0
  key := Vector.replicate 16 false
  fault := FaultLatch.clear
  draws := 0
  driver := []
  schedule := .free 0

end Sys2Proof.Machine
end

