-- ==== Sys2Proof/Machine/Ops.lean ====
section
/-! DEFINITION. The named operations over memory and registers, and taking a fault. Every access to a piece of state
goes through one of them. -/

namespace Sys2Proof.Machine

/-! ### Memory (20_memory.md) -/

/-- The byte at an address: the listed one, else the reset contents (R41, R42). -/
def Memory.read : Memory → Nat → Byte
  | [], a => resetByte a
  | (c, b) :: m, a => if a = c then b else Memory.read m a

/-- Puts a cell at the head of a memory, unless it holds what an unlisted address reads as. -/
def Memory.cons (a : Nat) (b : Byte) (m : Memory) : Memory := if b = resetByte a then m else (a, b) :: m

/-- The memory with one byte written; keeps the canonical form. -/
def Memory.write : Memory → Nat → Byte → Memory
  | [], a, b => Memory.cons a b []
  | (c, d) :: m, a, b =>
    if a < c then Memory.cons a b ((c, d) :: m)
    else if a = c then Memory.cons a b m
    else (c, d) :: Memory.write m a b

/-- Every address of a memory is at least `lo` and below the memory size, addresses rise strictly, and no cell holds
what an unlisted address reads as. -/
def Memory.wfFrom : Nat → Memory → Bool
  | _, [] => true
  | lo, (a, b) :: m => decide (lo ≤ a ∧ a < Config.memSize ∧ b ≠ resetByte a) && Memory.wfFrom (a + 1) m

/-- The canonical form. -/
def Memory.wf (m : Memory) : Bool := Memory.wfFrom 0 m

/-- The bytes at `a`, `a+1`, up to `a+n-1`. -/
def Memory.readBytes (m : Memory) (a : Nat) : Nat → List Byte
  | 0 => []
  | n + 1 => m.read a :: Memory.readBytes m (a + 1) n

/-- The memory with bytes written at `a`, `a+1` and on. -/
def Memory.writeBytes (m : Memory) (a : Nat) : List Byte → Memory
  | [] => m
  | b :: bs => Memory.writeBytes (m.write a b) (a + 1) bs

/-- The bounds check of R57 to R59 on the whole range of `n` bytes from `a`: addresses are natural numbers and never
wrap (R13), and an empty range is in bounds. -/
def inBounds (a n : Nat) : Bool := decide (n = 0 ∨ a + n ≤ Config.memSize)

/-- The byte at an address of the machine's memory. -/
def State.byte (s : State) (a : Nat) : Byte := s.mem.read a

/-- The instruction word at `pc`, high byte at the lower address (R53, R90); none where a byte does not exist. -/
def State.fetch (s : State) : Option Word :=
  if inBounds s.pc.toNat 2 then some (wordOfBytes (s.byte s.pc.toNat) (s.byte (s.pc.toNat + 1))) else none

/-- The state with another memory image. -/
def State.setMem (s : State) (m : Memory) : State := { s with mem := m }

/-! ### Registers (10_state.md) -/

/-- `V[r]` (R20). -/
def State.reg (s : State) (r : Reg) : Byte := s.v[r.toNat]'r.isLt

/-- `V[r] <- b` (R20): no register is hardwired. -/
def State.setReg (s : State) (r : Reg) (b : Byte) : State := { s with v := s.v.set r.toNat b r.isLt }

/-- `V[k]`, `V[k+1]` and on take the bytes of a list. -/
def writeRegs (v : Vector Byte 16) (k : Nat) : List Byte → Vector Byte 16
  | [] => v
  | b :: bs => writeRegs (v.setIfInBounds k b) (k + 1) bs

/-- The state with other data registers. -/
def State.setRegs (s : State) (v : Vector Byte 16) : State := { s with v := v }

/-- `I <- a` (R23). -/
def State.setIndex (s : State) (a : Word) : State := { s with i := a }

/-- `pc <- a` (R24). -/
def State.setPc (s : State) (a : Word) : State := { s with pc := a }

/-- `pc <- pc0 + 2` (40_cycle.md R91). -/
def State.advance (s : State) : State := s.setPc (s.pc + 2)

/-- `DT <- b` (R29). -/
def State.setDt (s : State) (b : Byte) : State := { s with dt := b }

/-- `ST <- b` (R30). -/
def State.setSt (s : State) (b : Byte) : State := { s with st := b }

/-- The state with another bitmap. -/
def State.setFb (s : State) (fb : Bitmap) : State := { s with fb := fb }

/-- The byte that the next `RND` draws (R40): a free value. -/
def State.rndByte (s : State) : Byte := Config.rnd s.draws

/-- The state after a draw: the next one is another free value. -/
def State.drawn (s : State) : State := { s with draws := s.draws + 1 }

/-! ### The call stack (R27, R28) -/

/-- Pushes a return address: `stack[sp] <- a; sp <- sp + 1`; none where the stack is full. -/
def State.push (s : State) (a : Word) : Option State :=
  if h : s.sp.val < 16 then
    some { s with stack := s.stack.set s.sp.val a h, sp := ⟨s.sp.val + 1, Nat.succ_lt_succ h⟩ }
  else none

/-- Pops the top: its value and the state with `sp <- sp - 1`, the entry kept; none where the stack is empty. -/
def State.pop (s : State) : Option (Word × State) :=
  if _h : 0 < s.sp.val then
    some (s.stack[s.sp.val - 1]'(by have := s.sp.isLt; omega),
      { s with sp := ⟨s.sp.val - 1, by have := s.sp.isLt; omega⟩ })
  else none

/-! ### Keys (R34, 45_keypad_timers.md R176) -/

/-- The Keypad's query `is_key_down` of a symbol: none where the symbol is above 15. -/
def State.isKeyDown (s : State) (symbol : Byte) : Option Bool :=
  if h : symbol.toNat < 16 then some s.key[symbol.toNat] else none

/-- The lowest symbol whose key is down, if any. -/
def State.lowestKeyDown (s : State) : Option Nat := s.key.toList.findIdx? id

/-- `key[k] <- b` (R214). -/
def State.setKey (s : State) (k : Nibble) (b : Bool) : State := { s with key := s.key.set k.toNat b k.isLt }

/-! ### Taking a fault (60_exceptions.md R196, R197) -/

/-- The numeric code of a cause (R190). -/
def Cause.code : Cause → Nat
  | .none => 0
  | .fetchFault => 1
  | .dataFault => 2
  | .stackOverflow => 3
  | .stackUnderflow => 4
  | .invalidKey => 5

/-- Fault entry: the latch takes the cause, `pc0` and the word, and nothing else changes: `pc` stays `pc0`, and there
is no handler, no saved area and no return (R197, R200). -/
def State.raise (s : State) (c : Cause) (op : Word) : State := { s with fault := ⟨c, s.pc, op⟩ }

/-- A fault raised by an instruction records the instruction's own word (R192 to R195, D26). -/
def State.raiseBy (s : State) (c : Cause) (i : Instr) : State := s.raise c (encode i)

end Sys2Proof.Machine
end

