-- ==== Sys2Proof/Machine/Flags.lean ====
section
/-! DEFINITION. The one flag, `VF` (10_state.md R21, R35 to R37), and the order of its write. -/

namespace Sys2Proof.Machine

/-- A flag as `VF` holds it: 0x00 or 0x01 (R21). -/
def flagByte (b : Bool) : Byte := if b then 1 else 0

/-- Carry out of an 8-bit sum (42_alu.md R126). -/
def carryFlag (a b : Byte) : Byte := flagByte (decide (255 < a.toNat + b.toNat))

/-- No borrow in `a - b`: equal operands give 1 (R127, R129). -/
def noBorrowFlag (a b : Byte) : Byte := flagByte (decide (b.toNat ≤ a.toNat))

/-- The bit that a shift right drops (R128). -/
def lowBitFlag (a : Byte) : Byte := flagByte (a.getLsbD 0)

/-- The bit that a shift left drops, as 0 or 1 (R130, D11, 90_conflicts.md C2). -/
def highBitFlag (a : Byte) : Byte := flagByte (a.getLsbD 7)

/-- The write-back of a flag-setting instruction: the flag, then the destination, so that with `x = 15` the
destination value stands (R37, R133, D12). -/
def State.writeFlagged (s : State) (x : Reg) (flag value : Byte) : State := (s.setReg VF flag).setReg x value

end Sys2Proof.Machine
end

