-- ==== Sys2Proof/Machine/Alu.lean ====
section
/-! DEFINITION. Register load, arithmetic, logic, shift and random (42_alu.md). Operands are read from the
pre-state (R37). -/

namespace Sys2Proof.Machine

/-- `LD Vx,kk` (R120). -/
def execLdImm (x : Reg) (kk : Byte) (s : State) : Result := .next (s.setReg x kk).advance

/-- `ADD Vx,kk` (R121): wraps, no flag. -/
def execAddImm (x : Reg) (kk : Byte) (s : State) : Result := .next (s.setReg x (s.reg x + kk)).advance

/-- `LD Vx,Vy` (R122). -/
def execLdReg (x y : Reg) (s : State) : Result := .next (s.setReg x (s.reg y)).advance

/-- `OR Vx,Vy` (R123): no flag. -/
def execOrReg (x y : Reg) (s : State) : Result := .next (s.setReg x (s.reg x ||| s.reg y)).advance

/-- `AND Vx,Vy` (R124): no flag. -/
def execAndReg (x y : Reg) (s : State) : Result := .next (s.setReg x (s.reg x &&& s.reg y)).advance

/-- `XOR Vx,Vy` (R125): no flag. -/
def execXorReg (x y : Reg) (s : State) : Result := .next (s.setReg x (s.reg x ^^^ s.reg y)).advance

/-- `ADD Vx,Vy` (R126). -/
def execAddReg (x y : Reg) (s : State) : Result :=
  .next (s.writeFlagged x (carryFlag (s.reg x) (s.reg y)) (s.reg x + s.reg y)).advance

/-- `SUB Vx,Vy` (R127). -/
def execSubReg (x y : Reg) (s : State) : Result :=
  .next (s.writeFlagged x (noBorrowFlag (s.reg x) (s.reg y)) (s.reg x - s.reg y)).advance

/-- `SHR Vx` (R128): logical; the field `y` plays no part (R75). -/
def execShr (x : Reg) (s : State) : Result :=
  .next (s.writeFlagged x (lowBitFlag (s.reg x)) (s.reg x >>> 1)).advance

/-- `SUBN Vx,Vy` (R129). -/
def execSubn (x y : Reg) (s : State) : Result :=
  .next (s.writeFlagged x (noBorrowFlag (s.reg y) (s.reg x)) (s.reg y - s.reg x)).advance

/-- `SHL Vx` (R130): the field `y` plays no part (R75). -/
def execShl (x : Reg) (s : State) : Result :=
  .next (s.writeFlagged x (highBitFlag (s.reg x)) (s.reg x <<< 1)).advance

/-- `RND Vx,kk` (R131): masks a free byte. -/
def execRnd (x : Reg) (kk : Byte) (s : State) : Result := .next (s.setReg x (kk &&& s.rndByte)).drawn.advance

end Sys2Proof.Machine
end

