-- ==== Sys2Proof/Machine/Display.lean ====
section
/-! DEFINITION. The display, the sprite rasterizer and its instructions (44_display.md). -/

namespace Sys2Proof.Machine

/-- `fb[r][c]` (10_state.md R33): 1 = on. -/
def pixel (fb : Bitmap) (r : Fin 32) (c : Fin 64) : Bool := fb[r].getMsbD c

/-- All pixels off (R160). -/
def blankBitmap : Bitmap := Vector.replicate 32 0

/-- A sprite row as a whole display row: its most significant bit in column `x0 mod 64`, each pixel wrapping in the
row (R161). -/
def spriteRow (x0 : Nat) (b : Byte) : BitVec 64 := (b.setWidth 64 <<< 56).rotateRight (x0 % Config.dispW)

/-- The display row that a y coordinate names (R161). -/
def rowAt (y : Nat) : Fin 32 := ⟨y % Config.dispH, Nat.mod_lt y (by decide)⟩

/-- XORs one sprite row into the bitmap. -/
def drawRow (fb : Bitmap) (x0 y : Nat) (b : Byte) : Bitmap :=
  fb.set (rowAt y) (fb[rowAt y] ^^^ spriteRow x0 b) (rowAt y).isLt

/-- The rasterizer's bitmap (R161): each sprite row in turn, from row `y` on. -/
def draw (fb : Bitmap) (x0 y : Nat) : List Byte → Bitmap
  | [] => fb
  | b :: bs => draw (drawRow fb x0 y b) x0 (y + 1) bs

/-- Whether any pixel goes from on to off in a draw (R162). -/
def collides (fb : Bitmap) (x0 y : Nat) : List Byte → Bool
  | [] => false
  | b :: bs => (fb[rowAt y] &&& spriteRow x0 b != 0) || collides (drawRow fb x0 y b) x0 (y + 1) bs

/-- `CLS` (R160): no flag. -/
def execCls (s : State) : Result := .next (s.setFb blankBitmap).advance

/-- `DRW Vx,Vy,n` (R163): coordinates from the pre-state, the range checked first, `VF` always written. -/
def execDrw (x y : Reg) (n : Nibble) (s : State) : Result :=
  if inBounds s.i.toNat n.toNat then
    let rows := s.mem.readBytes s.i.toNat n.toNat
    let x0 := (s.reg x).toNat
    let y0 := (s.reg y).toNat
    .next ((s.setFb (draw s.fb x0 y0 rows)).setReg VF (flagByte (collides s.fb x0 y0 rows))).advance
  else .next (s.raiseBy .dataFault (.drw x y n))

end Sys2Proof.Machine
end

