-- ==== Sys2Proof/Machine/Operands.lean ====
section
/-! DEFINITION. How operands become addresses and values (30_encoding.md R72, 43_index_memory.md R146). -/

namespace Sys2Proof.Machine

/-- `zext_16(nnn)` (R72). -/
def addressOf (nnn : Addr12) : Word := nnn.setWidth 16

/-- The target of `JP V0,nnn`: `nnn + V[0]`, not reduced to 12 bits (41_flow.md R108). -/
def offsetAddress (nnn : Addr12) (v0 : Byte) : Word := nnn.setWidth 16 + v0.setWidth 16

/-- `pc0 + 4` where a skip's condition holds, else `pc0 + 2` (R107). -/
def skipAddress (pc0 : Word) (cond : Bool) : Word := if cond then pc0 + 4 else pc0 + 2

/-- The pc after a skip instruction. -/
def State.skipIf (s : State) (cond : Bool) : State := s.setPc (skipAddress s.pc cond)

/-- `(I + V[x]) mod 65536` (R141, D10). -/
def indexSum (i : Word) (vx : Byte) : Word := i + vx.setWidth 16

/-- The address of the glyph a register names: the whole value times 5 (R142, D23). -/
def glyphAddress (vx : Byte) : Word := BitVec.ofNat 16 (vx.toNat * Config.glyphSize)

/-- The hundreds, tens and ones digits of a byte, the hundreds first (R143). -/
def bcdDigits (vx : Byte) : List Byte :=
  [BitVec.ofNat 8 (vx.toNat / 100), BitVec.ofNat 8 (vx.toNat / 10 % 10), BitVec.ofNat 8 (vx.toNat % 10)]

/-- How many registers `V[0]` to `V[x]` are (R144). -/
def regCount (x : Reg) : Nat := x.toNat + 1

/-- `V[0]` to `V[x]`, in that order (R144). -/
def State.regsUpTo (s : State) (x : Reg) : List Byte := s.v.toList.take (regCount x)

end Sys2Proof.Machine
end

