-- ==== Sys2Proof/Machine/Flow.lean ====
section
/-! DEFINITION. Control transfer (41_flow.md) and the no-operation (40_cycle.md R95). A meaning takes the state
before the fetch advance, so `s.pc` is `pc0` (00_scope.md R14). -/

namespace Sys2Proof.Machine

/-- `RET` (R100, R194). -/
def execRet (s : State) : Result :=
  match s.pop with
  | some (a, t) => .next (t.setPc a)
  | none => .next (s.raiseBy .stackUnderflow .ret)

/-- `JP nnn` (R101). -/
def execJp (nnn : Addr12) (s : State) : Result := .next (s.setPc (addressOf nnn))

/-- `CALL nnn` (R102, R193): pushes the address of the instruction after it. -/
def execCall (nnn : Addr12) (s : State) : Result :=
  match s.push (s.pc + 2) with
  | some t => .next (t.setPc (addressOf nnn))
  | none => .next (s.raiseBy .stackOverflow (.call nnn))

/-- `SE Vx,kk` (R103). -/
def execSeImm (x : Reg) (kk : Byte) (s : State) : Result := .next (s.skipIf (s.reg x == kk))

/-- `SNE Vx,kk` (R104). -/
def execSneImm (x : Reg) (kk : Byte) (s : State) : Result := .next (s.skipIf (s.reg x != kk))

/-- `SE Vx,Vy` (R105). -/
def execSeReg (x y : Reg) (s : State) : Result := .next (s.skipIf (s.reg x == s.reg y))

/-- `SNE Vx,Vy` (R106). -/
def execSneReg (x y : Reg) (s : State) : Result := .next (s.skipIf (s.reg x != s.reg y))

/-- `JP V0,nnn` (R108). -/
def execJpV0 (nnn : Addr12) (s : State) : Result := .next (s.setPc (offsetAddress nnn (s.reg V0)))

/-- `NOP`, every unrecognized word (R95). -/
def execNop (s : State) : Result := .next s.advance

end Sys2Proof.Machine
end

