-- ==== Sys2Proof/Machine/IndexMemory.lean ====
section
/-! DEFINITION. Index-register and memory instructions (43_index_memory.md). The whole address range is checked
before any effect (20_memory.md R59); `I` is unchanged by every access (R146). -/

namespace Sys2Proof.Machine

/-- Stores bytes from `I` on, or takes the DataFault of instruction `i` (R58, R59, R192). -/
def State.storeAtIndex (s : State) (i : Instr) (bs : List Byte) : Result :=
  if inBounds s.i.toNat bs.length then .next (s.setMem (s.mem.writeBytes s.i.toNat bs)).advance
  else .next (s.raiseBy .dataFault i)

/-- `LD I,nnn` (R140). -/
def execLdI (nnn : Addr12) (s : State) : Result := .next (s.setIndex (addressOf nnn)).advance

/-- `ADD I,Vx` (R141): wraps, no flag, no fault. -/
def execAddI (x : Reg) (s : State) : Result := .next (s.setIndex (indexSum s.i (s.reg x))).advance

/-- `LD F,Vx` (R142). -/
def execLdF (x : Reg) (s : State) : Result := .next (s.setIndex (glyphAddress (s.reg x))).advance

/-- `LD B,Vx` (R143). -/
def execLdB (x : Reg) (s : State) : Result := s.storeAtIndex (.ldB x) (bcdDigits (s.reg x))

/-- `LD [I],Vx` (R144). -/
def execStRegs (x : Reg) (s : State) : Result := s.storeAtIndex (.stRegs x) (s.regsUpTo x)

/-- `LD Vx,[I]` (R145). -/
def execLdRegs (x : Reg) (s : State) : Result :=
  if inBounds s.i.toNat (regCount x) then
    .next (s.setRegs (writeRegs s.v 0 (s.mem.readBytes s.i.toNat (regCount x)))).advance
  else .next (s.raiseBy .dataFault (.ldRegs x))

end Sys2Proof.Machine
end

