-- ==== Sys2Proof/Machine/KeypadTimers.lean ====
section
/-! DEFINITION. Keypad and timer instructions (45_keypad_timers.md). Keys and `DT` are those of the pre-state
(40_cycle.md R97). -/

namespace Sys2Proof.Machine

/-- `SKP Vx` (R170, R195). -/
def execSkp (x : Reg) (s : State) : Result :=
  match s.isKeyDown (s.reg x) with
  | some down => .next (s.skipIf down)
  | none => .next (s.raiseBy .invalidKey (.skp x))

/-- `SKNP Vx` (R171, R195). -/
def execSknp (x : Reg) (s : State) : Result :=
  match s.isKeyDown (s.reg x) with
  | some down => .next (s.skipIf (!down))
  | none => .next (s.raiseBy .invalidKey (.sknp x))

/-- `LD Vx,K` (R172): while no key is down nothing changes, `pc` included. -/
def execLdVxK (x : Reg) (s : State) : Result :=
  match s.lowestKeyDown with
  | some k => .next (s.setReg x (BitVec.ofNat 8 k)).advance
  | none => .next s

/-- `LD Vx,DT` (R173). -/
def execLdVxDt (x : Reg) (s : State) : Result := .next (s.setReg x s.dt).advance

/-- `LD DT,Vx` (R174). -/
def execLdDtVx (x : Reg) (s : State) : Result := .next (s.setDt (s.reg x)).advance

/-- `LD ST,Vx` (R175). -/
def execLdStVx (x : Reg) (s : State) : Result := .next (s.setSt (s.reg x)).advance

end Sys2Proof.Machine
end

