-- ==== Sys2Proof/Machine/Events.lean ====
section
/-! DEFINITION. The host's events and read views (00_scope.md R5; 60_exceptions.md R210 to R214;
70_reset_and_hazards.md R230 to R233). -/

namespace Sys2Proof.Machine

/-- One timer after a `tick`: 1 less, and 0 stays 0 (R210). -/
def decrement (b : Byte) : Byte := if b = 0 then 0 else b - 1

/-- The `tick` event (R210): acts on a faulted machine too (R198). -/
def State.tick (s : State) : State := (s.setDt (decrement s.dt)).setSt (decrement s.st)

/-- The `reset` event (R230): every piece of state at its reset value but the keys, which belong to the host (D19).
The model's own fields go on. -/
def State.resetEvent (s : State) : State :=
  { State.reset with key := s.key, draws := s.draws, driver := s.driver, schedule := s.schedule }

/-- The `load` event (R232, R233): `reset`, then the image from 0x200 on, what does not fit dropped. -/
def State.load (s : State) (image : List Byte) : State :=
  let t := s.resetEvent
  t.setMem (t.mem.writeBytes Config.progBase (image.take Config.progMax))

/-- The display read port (R213): the bitmap, row by row, as on/off values. -/
def State.fbRead (s : State) : List (List Bool) :=
  s.fb.toList.map fun row => (List.range Config.dispW).map row.getMsbD

/-- The level the host sees of the sound timer (R212, D22): nothing in the machine depends on it. -/
def State.soundOn (s : State) : Bool := s.st != 0

end Sys2Proof.Machine
end

