-- ==== Sys2Proof/Machine/Cycle.lean ====
section
/-! DEFINITION. The `step` event (40_cycle.md R90 to R94) and the order of events (00_scope.md R6). -/

namespace Sys2Proof.Machine

/-- One `step` event in the order of R94: a faulted machine does nothing (R198); a fetch that does not exist takes
FetchFault and records word 0 (R191); else the decoded instruction is executed. -/
def cycle (s : State) : Result :=
  if s.fault.cause = .none then
    match s.fetch with
    | some op => exec (decodeWord op) s
    | none => .next (s.raise .fetchFault 0)
  else .next s

/-- The effect of one interface event (R5): an atomic transition. -/
def present (e : Event) (s : State) : Result :=
  match e with
  | .step => cycle s
  | .tick => .next s.tick
  | .keySet k b => .next (s.setKey k b)
  | .reset => .next s.resetEvent
  | .load image => .next (s.load image)
  | .fbRead => .next s

/-- The next event of the total order (R6) and the state that it finds: the oldest event listed, else the next one of
the schedule (log entry 2). -/
def takeEvent (s : State) : Event × State :=
  match s.driver, s.schedule with
  | e :: rest, _ => (e, { s with driver := rest })
  | [], .stepsOnly => (.step, s)
  | [], .free n => (Config.event n, { s with schedule := .free (n + 1) })

/-- The effect of the next event. -/
def nextEvent (s : State) : Result := present (takeEvent s).1 (takeEvent s).2

/-- The address where the next instruction is fetched; where `pc` cannot be fetched from, the program base. -/
def fetchAddress (s : State) : Word := if inBounds s.pc.toNat 2 then s.pc else BitVec.ofNat 16 Config.progBase

/-- The state whose next events are `step`s, the first of which fetches the word `w`: no fault latched, `pc` at an
address that exists, and the word's two bytes there (log entry 8). -/
def State.placeWord (s : State) (w : Word) : State :=
  { s with
    pc := fetchAddress s
    mem := s.mem.writeBytes (fetchAddress s).toNat (bytesOfWord w)
    fault := if s.fault.cause = .none then s.fault else FaultLatch.clear
    driver := []
    schedule := .stepsOnly }

end Sys2Proof.Machine
end

