-- ==== Sys2Proof/Machine/Step.lean ====
section
/-! DEFINITION. The machine's step: one interface event. -/

namespace Sys2Proof.Machine

/-- One event of the machine: the next one of the total order (R6). -/
def step (s : State) : Host.Outcome State Fault Refusal := nextEvent s

/-- The state with a row's word stored where `step` fetches its next instruction. -/
def State.withFetchWord (s : State) (nbits w : Nat) : State := s.placeWord (tableWord nbits w)

end Sys2Proof.Machine
end

