-- ==== Sys2Proof/Safety.lean ====
section
/-! DEFINITION. What a claim may assume of a state and what counts as a safe run. -/

namespace Sys2Proof.Machine

/-- The machine is not faulted (10_state.md R31): `step` events act on it. -/
abbrev State.Running (s : State) : Prop := s.fault.cause = .none

/-- A run is safe as long as no fault is latched. -/
abbrev State.Safe (s : State) : Prop := s.Running

/-- The pc and every stack entry are in the range of R26: a `pc` of at most 0x10FE, entries at most 4096. -/
def State.AddressesInRange (s : State) : Prop := s.pc.toNat ≤ 0x10FE ∧ ∀ k : Fin 16, s.stack[k].toNat ≤ 0x1000

/-- The latch is consistent: with no fault it holds zeros (R41); with one it holds the `pc` the machine stopped at
(R196, R197), and word 0 after a fetch fault (R191). -/
def State.LatchConsistent (s : State) : Prop :=
  (s.fault.cause = .none → s.fault = FaultLatch.clear) ∧
  (s.fault.cause ≠ .none → s.fault.fpc = s.pc) ∧
  (s.fault.cause = .fetchFault → s.fault.fop = 0)

/-- The invariant of the machine. -/
structure State.Inv (s : State) : Prop where
  memory : s.mem.wf = true
  addresses : s.AddressesInRange
  latch : s.LatchConsistent

end Sys2Proof.Machine
end

