-- ==== Sys2Proof/Certificates/Slice0/Obligations.lean ====
section
/-! DEFINITION. The statements for the provers. Each docstring names the rule of spec/ it formalises; where a clause
rests on a decision the spec marks as its own (D<n>) or on a convention of the model, it says so. -/

namespace Sys2Proof.Rules

open Sys2Proof.Machine

/-! ### What an instruction leaves unchanged -/

/-- Every data register reads as before. -/
def KeepsRegs (s t : State) : Prop := ∀ r, t.reg r = s.reg r

/-- Every data register but `x` reads as before. -/
def KeepsRegsBut (x : Reg) (s t : State) : Prop := ∀ r, r ≠ x → t.reg r = s.reg r

/-- Every data register but `x` and `VF` reads as before. -/
def KeepsRegsButFlag (x : Reg) (s t : State) : Prop := ∀ r, r ≠ x → r ≠ VF → t.reg r = s.reg r

/-- Every byte of memory reads as before. -/
def KeepsMemory (s t : State) : Prop := ∀ a, t.byte a = s.byte a

/-- Every byte of memory outside the `n` bytes from `a` on reads as before. -/
def KeepsMemoryOutside (a n : Nat) (s t : State) : Prop := ∀ c, (c < a ∨ a + n ≤ c) → t.byte c = s.byte c

/-- The stack pointer and every stack entry, live or not. -/
def KeepsStack (s t : State) : Prop := t.sp = s.sp ∧ t.stack = s.stack

/-- Both timers. -/
def KeepsTimers (s t : State) : Prop := t.dt = s.dt ∧ t.st = s.st

/-- What the driver presents later: the listed events and the schedule, the model's own fields (log entry 2). -/
def KeepsOrder (s t : State) : Prop := t.driver = s.driver ∧ t.schedule = s.schedule

/-- What belongs to the host: the key flags, and the model's own record of the events to come (log entry 2). -/
def KeepsHostSide (s t : State) : Prop := t.key = s.key ∧ KeepsOrder s t

/-- The driver presents `step` next and nothing else before: with no event listed and only `step` events scheduled
(the model's own fields, log entry 2). -/
def OnlyStepsAhead (s : State) : Prop := s.driver = [] ∧ s.schedule = .stepsOnly

/-- Index register, stack, timers, display, host's side, fault latch and the draw counter (the model's own, log
entry 1). -/
def KeepsSpecials (s t : State) : Prop :=
  t.i = s.i ∧ KeepsStack s t ∧ KeepsTimers s t ∧ t.fb = s.fb ∧ KeepsHostSide s t ∧ t.fault = s.fault ∧
    t.draws = s.draws

/-- Nothing but data registers and `pc` may differ. -/
def OnlyRegsAndPc (s t : State) : Prop := KeepsSpecials s t ∧ KeepsMemory s t

/-- Nothing but `pc` may differ. -/
def OnlyPc (s t : State) : Prop := KeepsRegs s t ∧ OnlyRegsAndPc s t

/-- The state of a precise fault (R196, R197): only the latch is written. -/
def faulted (c : Cause) (op : Word) (s : State) : State := { s with fault := ⟨c, s.pc, op⟩ }

/-- The cause and the word that a fault in state `s` records: word 0 with a fetch fault, else the word at `pc0`. -/
def FaultRecord (c : Cause) (op : Word) (s : State) : Prop :=
  c ≠ .none ∧ (c = .fetchFault → op = 0) ∧
    (c ≠ .fetchFault → op = wordOfBytes (s.byte s.pc.toNat) (s.byte (s.pc.toNat + 1)))

/-- The last address of `n > 0` bytes from `I` on is 4096 or more (R59). -/
def OutOfRange (s : State) (n : Nat) : Prop := n ≠ 0 ∧ 4096 ≤ s.i.toNat + n - 1

/-- The final pc of an instruction that does not fault: the table of R25. -/
def finalPc (i : Instr) (s : State) : Word :=
  match i with
  | .jp nnn | .call nnn => nnn.setWidth 16
  | .ret => (s.stack[s.sp.val - 1]?).getD 0
  | .jpV0 nnn => BitVec.ofNat 16 (nnn.toNat + (s.reg V0).toNat)
  | .seImm x kk => if s.reg x = kk then s.pc + 4 else s.pc + 2
  | .sneImm x kk => if s.reg x ≠ kk then s.pc + 4 else s.pc + 2
  | .seReg x y => if s.reg x = s.reg y then s.pc + 4 else s.pc + 2
  | .sneReg x y => if s.reg x ≠ s.reg y then s.pc + 4 else s.pc + 2
  | .skp x => if s.key[(s.reg x).toNat]? = some true then s.pc + 4 else s.pc + 2
  | .sknp x => if s.key[(s.reg x).toNat]? = some false then s.pc + 4 else s.pc + 2
  | .ldVxK _ => if ∀ k : Fin 16, s.key[k] = false then s.pc else s.pc + 2
  | _ => s.pc + 2

/-- The destination register of an instruction that names one as `x` (R36), if any. -/
def destination : Instr → Option Reg
  | .ldImm x _ | .addImm x _ | .ldReg x _ | .orReg x _ | .andReg x _ | .xorReg x _ => some x
  | .addReg x _ | .subReg x _ | .shr x _ | .subn x _ | .shl x _ => some x
  | .rnd x _ | .ldVxDt x | .ldVxK x => some x
  | _ => none

/-- The six instructions that write `VF` as a side effect (R35). -/
def writesFlag : Instr → Bool
  | .addReg _ _ | .subReg _ _ | .subn _ _ | .shr _ _ | .shl _ _ | .drw _ _ _ => true
  | _ => false

/-- The source bit of a sprite at row `r`, column `c`: column 0 is the most significant bit (R161). -/
def spriteBit (rows : List Byte) (r c : Nat) : Bool := (rows.getD r 0).getLsbD (7 - c)

/-- The pixel that source bit `(r, c)` of a sprite drawn at `(x0, y0)` targets: its row and column (R161). -/
def targetRow (y0 r : Nat) : Fin 32 := ⟨(y0 + r) % 32, Nat.mod_lt _ (by decide)⟩

/-- The column of the target pixel (R161). -/
def targetCol (x0 c : Nat) : Fin 64 := ⟨(x0 + c) % 64, Nat.mod_lt _ (by decide)⟩

/-- `fb'` is `fb` with `n` sprite rows XORed in at `(x0, y0)`: every target pixel takes the XOR with its source bit and
every other pixel keeps its value (R161). -/
def Drawn (fb fb' : Bitmap) (x0 y0 : Nat) (rows : List Byte) : Prop :=
  (∀ r c, r < rows.length → c < 8 →
    pixel fb' (targetRow y0 r) (targetCol x0 c)
      = (pixel fb (targetRow y0 r) (targetCol x0 c) ^^ spriteBit rows r c)) ∧
  (∀ tr tc, (∀ r c, r < rows.length → c < 8 → ¬ (tr = targetRow y0 r ∧ tc = targetCol x0 c)) →
    pixel fb' tr tc = pixel fb tr tc)

/-- Some target pixel is on and its source bit is 1 (R162). -/
def HitsLitPixel (fb : Bitmap) (x0 y0 : Nat) (rows : List Byte) : Prop :=
  ∃ r c, r < rows.length ∧ c < 8 ∧ spriteBit rows r c = true ∧ pixel fb (targetRow y0 r) (targetCol x0 c) = true

/-- The glyphs of the digits 0 to F as the table of R56 lists them (decision D4, log entry 5). -/
def glyphs : List (List Byte) := [
  [0xF0, 0x90, 0x90, 0x90, 0xF0], [0x20, 0x60, 0x20, 0x20, 0x70], [0xF0, 0x10, 0xF0, 0x80, 0xF0],
  [0xF0, 0x10, 0xF0, 0x10, 0xF0], [0x90, 0x90, 0xF0, 0x10, 0x10], [0xF0, 0x80, 0xF0, 0x10, 0xF0],
  [0xF0, 0x80, 0xF0, 0x90, 0xF0], [0xF0, 0x10, 0x20, 0x40, 0x40], [0xF0, 0x90, 0xF0, 0x90, 0xF0],
  [0xF0, 0x90, 0xF0, 0x10, 0xF0], [0xF0, 0x90, 0xF0, 0x90, 0x90], [0xE0, 0x90, 0xE0, 0x90, 0xE0],
  [0xF0, 0x80, 0x80, 0x80, 0xF0], [0xE0, 0x90, 0x90, 0x90, 0xE0], [0xF0, 0x80, 0xF0, 0x80, 0xF0],
  [0xF0, 0x80, 0xF0, 0x80, 0x80]]

/-- The events of a list, presented one after the other from `s`, leave `t`. -/
def Leave : List Event → State → State → Prop
  | [], s, t => t = s
  | e :: es, s, t => ∃ u, present e s = .next u ∧ Leave es u t

/-- A sequence of `key_set` events. -/
def keySets (ks : List (Nibble × Bool)) : List Event := ks.map fun e => .keySet e.1 e.2

end Sys2Proof.Rules

open Sys2Proof Sys2Proof.Machine Sys2Proof.Rules

/-! ### Encoding (30_encoding.md; every numeric pattern is the spec's decision D2, log entry 4) -/

/-- Decoding an encoded well-formed instruction gives it back, every operand at every value (R71 to R74). -/
def Obligations.DecodeOfEncodeIsIdentity : Prop :=
  ∀ i : Instr, i.wellFormed = true → decodeWord (encode i) = i

/-- Every word decodes to a well-formed instruction whose encoding is that word: no bit is dropped (R73). That `SHR`,
`SHL` and `NOP` keep bits they ignore is the model's representation (log entry 6). -/
def Obligations.EncodeOfDecodeIsIdentity : Prop :=
  ∀ w : Word, (decodeWord w).wellFormed = true ∧ encode (decodeWord w) = w

/-- A row of the table of R74 selects a word, `(op & mask) = match`, exactly when the decoder gives that row's
instruction (R73). -/
def Obligations.DecoderFollowsOpcodeTable : Prop :=
  ∀ (w : Word) (r : OpcodeRow), r ∈ opcodeTable → (r.selects w = true ↔ r.number = rowNumber (decodeWord w))

/-- The words that R78 lists decode to `NOP`, and no other word does; they are the words no row selects (R77, R78;
D15 for which words). -/
def Obligations.UnrecognizedWordsAreNop : Prop :=
  ∀ w : Word, (unrecognized w = true ↔ decodeWord w = .nop w) ∧
    (unrecognized w = true ↔ ∀ r ∈ opcodeTable, r.selects w = false)

/-- The encoding examples of 30_encoding.md section 6, from their bytes in memory order. -/
def Obligations.ExampleWordsDecode : Prop :=
  decodeWord (wordOfBytes 0x00 0xE0) = .cls ∧ decodeWord (wordOfBytes 0x12 0x34) = .jp 0x234 ∧
  decodeWord (wordOfBytes 0x3A 0xFE) = .seImm 10 0xFE ∧ decodeWord (wordOfBytes 0x8A 0xB4) = .addReg 10 11 ∧
  decodeWord (wordOfBytes 0x8A 0x06) = .shr 10 0 ∧ decodeWord (wordOfBytes 0x8A 0xF6) = .shr 10 15 ∧
  decodeWord (wordOfBytes 0xD1 0x25) = .drw 1 2 5 ∧ decodeWord (wordOfBytes 0xF3 0x0A) = .ldVxK 3 ∧
  decodeWord (wordOfBytes 0x51 0x21) = .nop 0x5121 ∧ decodeWord (wordOfBytes 0x01 0x23) = .nop 0x0123 ∧
  decodeWord (wordOfBytes 0xFF 0xFF) = .nop 0xFFFF ∧ decodeWord (wordOfBytes 0x00 0x00) = .nop 0

/-! ### The step (40_cycle.md, 60_exceptions.md) -/

/-- A `step` event of a running machine, whatever events are still to come, runs the instruction that the two bytes at
`pc` decode to, high byte first (R90, R92, R93). The machine's step is that event when only `step` events lie ahead and
when a `step` event is the first listed (the order of events as data is the model's convention, log entry 2). -/
def Obligations.StepRunsDecodedInstruction : Prop :=
  ∀ (s : State) (i : Instr), s.Running → s.pc.toNat + 1 < 4096 →
    decodeWord (wordOfBytes (s.byte s.pc.toNat) (s.byte (s.pc.toNat + 1))) = i →
    present .step s = exec i s ∧
    (OnlyStepsAhead s → step s = exec i s) ∧
    (∀ rest, s.driver = .step :: rest → step s = exec i { s with driver := rest })

/-- A fetch at 4095 or above takes FetchFault, whatever events are still to come: the latch records `pc0` and word 0,
and nothing else changes (R191; the mechanism is D5 and D9). The last two clauses say it of the machine's step, whose
order of events is the model's convention (log entry 2). -/
def Obligations.FetchBeyondMemoryFaults : Prop :=
  ∀ s : State, s.Running → 4095 ≤ s.pc.toNat →
    present .step s = .next (faulted .fetchFault 0 s) ∧
    (OnlyStepsAhead s → step s = .next (faulted .fetchFault 0 s)) ∧
    (∀ rest, s.driver = .step :: rest → step s = .next (faulted .fetchFault 0 { s with driver := rest }))

/-- A faulted machine's `step` has no effect and keeps the first fault; `tick` and `key_set` act and leave the latch;
`reset` and `load` clear it (R198, D7). That the machine's step is a `step` event is log entry 2's condition. -/
def Obligations.FaultedMachineIsHalted : Prop :=
  ∀ s : State, ¬ s.Running →
    present .step s = .next s ∧ (OnlyStepsAhead s → step s = .next s) ∧
    (∃ t, present .tick s = .next t ∧ t.fault = s.fault ∧ t.dt.toNat = s.dt.toNat - 1 ∧ t.st.toNat = s.st.toNat - 1) ∧
    (∀ k b, ∃ t, present (.keySet k b) s = .next t ∧ t.fault = s.fault ∧ t.key[k.toNat]? = some b) ∧
    (∃ t, present .reset s = .next t ∧ t.Running) ∧
    (∀ image, ∃ t, present (.load image) s = .next t ∧ t.Running)

/-- The next event is the oldest one listed, a `step` among them; with none listed it is a `step` where only those are
scheduled, and else the next event of the free sequence; an event taken is no longer to come, and the others still are
(R5, R6; holding the order of events in the state is the model's convention, log entry 2). -/
def Obligations.WaitingEventHappensNext : Prop :=
  (∀ (s : State) (e : Event) (rest : List Event), s.driver = e :: rest →
    ∃ t, step s = .next t ∧ present e { s with driver := rest } = .next t ∧
      t.driver = rest ∧ t.schedule = s.schedule) ∧
  (∀ s : State, OnlyStepsAhead s → ∃ t, step s = .next t ∧ present .step s = .next t ∧ OnlyStepsAhead t) ∧
  (∀ (s : State) (n : Nat), s.driver = [] → s.schedule = .free n →
    ∃ t, step s = .next t ∧ present (Config.event n) { s with schedule := .free (n + 1) } = .next t ∧
      t.driver = [] ∧ t.schedule = .free (n + 1))

/-- Every event of the interface, and so every step, answers a next state from every state, so no interleaving of
events is ever cut short (R5, R6; R93: every instruction is wholly defined; R197, R198: a fault is taken; that no step
ends in a fault outcome is the model's convention, log entry 3). -/
def Obligations.EveryStepAnswersANextState : Prop :=
  (∀ (e : Event) (s : State), ∃ t, present e s = .next t) ∧ ∀ s : State, ∃ t, step s = .next t

/-- A `JP` to its own address repeats with no change of state at every `step` event (R101, R235), and so at every step
of the machine while only those lie ahead (the model's convention, log entry 2). -/
def Obligations.JumpToItselfChangesNothing : Prop :=
  ∀ (s : State) (nnn : Addr12), s.Running → s.pc = nnn.setWidth 16 → s.pc.toNat + 1 < 4096 →
    wordOfBytes (s.byte s.pc.toNat) (s.byte (s.pc.toNat + 1)) = 0x1#4 ++ nnn →
    present .step s = .next s ∧ (OnlyStepsAhead s → step s = .next s)

/-! ### Invariants -/

/-- Every step keeps memory in its canonical form (the model's representation, 20_memory.md R50). -/
def Obligations.StepKeepsMemoryCanonical : Prop :=
  ∀ s t : State, s.mem.wf = true → step s = .next t → t.mem.wf = true

/-- Every step, and every host event, keeps `pc` at most 0x10FE and every stack entry at most 4096 (R26, an inference
of the spec). -/
def Obligations.StepKeepsAddressesInRange : Prop :=
  ∀ s t : State, s.AddressesInRange → step s = .next t → t.AddressesInRange

/-- Every step keeps the latch consistent: zeros with no fault, the stopped `pc` with one, word 0 after a fetch fault
(R31, R41, R191, R196, R198; the latch is decision D5). -/
def Obligations.StepKeepsLatchConsistent : Prop :=
  ∀ s t : State, s.LatchConsistent → step s = .next t → t.LatchConsistent

/-- The state at power-on meets the invariant: its memory is in the model's canonical form (log entry 14, a choice of
the model), its `pc` and stack entries are in the range of R26 (an inference of the spec), and its latch is clear (R31,
R41; the latch is D5). -/
def Obligations.PowerOnMeetsInvariant : Prop := State.reset.Inv

/-! ### Rules of the whole machine (10_state.md) -/

/-- The final pc of every instruction, the table of R25: `pc0` after a fault, else as tabulated. -/
def Obligations.FinalPcOfEveryInstruction : Prop :=
  ∀ (i : Instr) (s : State), s.Running →
    ∃ t, exec i s = .next t ∧ t.pc = if t.Running then finalPc i s else s.pc

/-- Only `CALL` and `RET` change the stack pointer or a stack entry, and `RET` changes no entry (R27, R28). -/
def Obligations.OnlyCallAndRetChangeStack : Prop :=
  ∀ (i : Instr) (s : State), ∃ t, exec i s = .next t ∧
    (t.stack ≠ s.stack → ∃ nnn, i = .call nnn) ∧ (t.sp ≠ s.sp → i = .ret ∨ ∃ nnn, i = .call nnn)

/-- `I` is written by `LD I,nnn`, `ADD I,Vx`, `LD F,Vx` and by nothing else (R23). -/
def Obligations.OnlyIndexInstructionsChangeIndex : Prop :=
  ∀ (i : Instr) (s : State), ∃ t, exec i s = .next t ∧
    (t.i ≠ s.i → (∃ nnn, i = .ldI nnn) ∨ (∃ x, i = .addI x) ∨ ∃ x, i = .ldF x)

/-- Only `LD B,Vx` and `LD [I],Vx` change memory, and only `CLS` and `DRW` the bitmap (R33, R44, R55, R165). -/
def Obligations.OnlyStoresChangeMemoryAndOnlyDrawsTheDisplay : Prop :=
  ∀ (i : Instr) (s : State), ∃ t, exec i s = .next t ∧
    (t.mem ≠ s.mem → (∃ x, i = .ldB x) ∨ ∃ x, i = .stRegs x) ∧
    (t.fb ≠ s.fb → i = .cls ∨ ∃ x y n, i = .drw x y n)

/-- No instruction writes `VF` but the six of R35, those that name register 15 as their destination, and
`LD VF,[I]`, which loads all registers (R36, an inference of the spec). -/
def Obligations.OnlyFlagWritersChangeFlag : Prop :=
  ∀ (i : Instr) (s : State), writesFlag i = false → destination i ≠ some VF → i ≠ .ldRegs VF →
    ∃ t, exec i s = .next t ∧ t.reg VF = s.reg VF

/-- An instruction never changes a key flag, and leaves both timers but for `LD DT,Vx` and `LD ST,Vx`, which load them
(R34, R44, R96). That it leaves the events to come is said of the model's own fields `driver` and `schedule` (log entry
2), which no rule knows. -/
def Obligations.InstructionsLeaveKeysAndTimers : Prop :=
  ∀ (i : Instr) (s : State), ∃ t, exec i s = .next t ∧ KeepsHostSide s t ∧
    (t.dt = s.dt ∨ ∃ x, i = .ldDtVx x ∧ t.dt = s.reg x) ∧ (t.st = s.st ∨ ∃ x, i = .ldStVx x ∧ t.st = s.reg x)

/-- Faults are precise: an event that latches a fault in a running machine is a `step` and changes nothing but the
latch, which records the cause, `pc0` and the word at `pc0`, or word 0 after a fetch fault (R196, R197; the mechanism is
D5, D26). Of the machine's step the same holds whatever comes next, but for the model's own record of the events to come
(log entry 2). -/
def Obligations.FaultsArePrecise : Prop :=
  (∀ (e : Event) (s t : State), s.Running → present e s = .next t → ¬ t.Running →
    e = .step ∧ ∃ c op, t = faulted c op s ∧ FaultRecord c op s) ∧
  (∀ s t : State, s.Running → step s = .next t → ¬ t.Running →
    ∃ c op, { t with driver := s.driver, schedule := s.schedule } = faulted c op s ∧ FaultRecord c op s)

/-! ### Control transfer (41_flow.md) -/

/-- `JP nnn` sets `pc` to exactly `nnn`; `JP V0,nnn` to `nnn + V[0]`, never reduced; nothing else changes (R101,
R108). -/
def Obligations.JumpsSetPc : Prop :=
  ∀ (nnn : Addr12) (s : State),
    (∃ t, exec (.jp nnn) s = .next t ∧ t.pc.toNat = nnn.toNat ∧ OnlyPc s t) ∧
    (∃ t, exec (.jpV0 nnn) s = .next t ∧ t.pc.toNat = nnn.toNat + (s.reg 0).toNat ∧ OnlyPc s t)

/-- `CALL nnn` below the full stack pushes `pc0 + 2`, advances `sp` and jumps; other entries and all else stay
(R102). -/
def Obligations.CallPushesReturnAddress : Prop :=
  ∀ (nnn : Addr12) (s : State), s.sp.val < 16 →
    ∃ t, exec (.call nnn) s = .next t ∧ t.pc.toNat = nnn.toNat ∧ t.sp.val = s.sp.val + 1 ∧
      (∀ k : Fin 16, t.stack[k] = if k.val = s.sp.val then s.pc + 2 else s.stack[k]) ∧
      KeepsRegs s t ∧ t.i = s.i ∧ KeepsTimers s t ∧ t.fb = s.fb ∧ KeepsHostSide s t ∧ t.fault = s.fault ∧
      t.draws = s.draws ∧ KeepsMemory s t

/-- `RET` above the empty stack takes the top entry into `pc` and lowers `sp`; the entry keeps its value and all else
stays (R100, R28). -/
def Obligations.RetPopsReturnAddress : Prop :=
  ∀ (s : State), 0 < s.sp.val →
    ∃ t, exec .ret s = .next t ∧ s.stack[s.sp.val - 1]? = some t.pc ∧ t.sp.val = s.sp.val - 1 ∧
      t.stack = s.stack ∧ KeepsRegs s t ∧ t.i = s.i ∧ KeepsTimers s t ∧ t.fb = s.fb ∧ KeepsHostSide s t ∧
      t.fault = s.fault ∧ t.draws = s.draws ∧ KeepsMemory s t

/-- `CALL` with 16 live entries takes StackOverflow and `RET` with none StackUnderflow; the latch records the word and
nothing else changes (R193, R194; D5, D18). -/
def Obligations.StackMisuseFaults : Prop :=
  (∀ (nnn : Addr12) (s : State), s.sp.val = 16 →
    exec (.call nnn) s = .next (faulted .stackOverflow (0x2#4 ++ nnn) s)) ∧
  (∀ s : State, s.sp.val = 0 → exec .ret s = .next (faulted .stackUnderflow 0x00EE s))

/-- A `CALL` followed by a `RET` comes back to the instruction after the `CALL` with the stack pointer as it was,
whatever other registers, memory or display did in between (R102, vector S3). -/
def Obligations.CallThenReturnComesBack : Prop :=
  ∀ (nnn : Addr12) (s : State), s.sp.val < 16 →
    ∃ t, exec (.call nnn) s = .next t ∧
      ∀ u : State, u.sp = t.sp → u.stack = t.stack →
        ∃ r, exec .ret u = .next r ∧ r.pc = s.pc + 2 ∧ r.sp = s.sp

/-- The four register skips go to `pc0 + 4` where their condition holds and to `pc0 + 2` where not; nothing else
changes (R103 to R107). -/
def Obligations.RegisterSkips : Prop :=
  ∀ (x y : Reg) (kk : Byte) (s : State),
    (∃ t, exec (.seImm x kk) s = .next t ∧ OnlyPc s t ∧
      ((s.reg x).toNat = kk.toNat → t.pc = s.pc + 4) ∧ ((s.reg x).toNat ≠ kk.toNat → t.pc = s.pc + 2)) ∧
    (∃ t, exec (.sneImm x kk) s = .next t ∧ OnlyPc s t ∧
      ((s.reg x).toNat ≠ kk.toNat → t.pc = s.pc + 4) ∧ ((s.reg x).toNat = kk.toNat → t.pc = s.pc + 2)) ∧
    (∃ t, exec (.seReg x y) s = .next t ∧ OnlyPc s t ∧
      ((s.reg x).toNat = (s.reg y).toNat → t.pc = s.pc + 4) ∧
      ((s.reg x).toNat ≠ (s.reg y).toNat → t.pc = s.pc + 2)) ∧
    (∃ t, exec (.sneReg x y) s = .next t ∧ OnlyPc s t ∧
      ((s.reg x).toNat ≠ (s.reg y).toNat → t.pc = s.pc + 4) ∧
      ((s.reg x).toNat = (s.reg y).toNat → t.pc = s.pc + 2))

/-- `NOP`, whatever its word, moves `pc` to `pc0 + 2` and changes nothing else (R95). -/
def Obligations.NopOnlyAdvances : Prop :=
  ∀ (w : Word) (s : State), ∃ t, exec (.nop w) s = .next t ∧ t.pc = s.pc + 2 ∧ OnlyPc s t

/-! ### Registers, arithmetic, logic, shifts, random (42_alu.md) -/

/-- `LD Vx,kk` and `LD Vx,Vy` set `V[x]` and nothing else but `pc` (R120, R122). -/
def Obligations.LoadsSetTheirRegister : Prop :=
  ∀ (x y : Reg) (kk : Byte) (s : State),
    (∃ t, exec (.ldImm x kk) s = .next t ∧ t.reg x = kk ∧ KeepsRegsBut x s t ∧ t.pc = s.pc + 2 ∧
      OnlyRegsAndPc s t) ∧
    (∃ t, exec (.ldReg x y) s = .next t ∧ t.reg x = s.reg y ∧ KeepsRegsBut x s t ∧ t.pc = s.pc + 2 ∧
      OnlyRegsAndPc s t)

/-- `ADD Vx,kk` wraps modulo 256 and writes no flag: with `x` other than 15, `VF` stays (R121). -/
def Obligations.AddImmediateWrapsWithoutFlag : Prop :=
  ∀ (x : Reg) (kk : Byte) (s : State),
    ∃ t, exec (.addImm x kk) s = .next t ∧ (t.reg x).toNat = ((s.reg x).toNat + kk.toNat) % 256 ∧
      KeepsRegsBut x s t ∧ t.pc = s.pc + 2 ∧ OnlyRegsAndPc s t

/-- `OR`, `AND` and `XOR` combine bit by bit and write no flag (R123 to R125). -/
def Obligations.LogicIsBitwiseWithoutFlag : Prop :=
  ∀ (x y : Reg) (s : State),
    (∃ t, exec (.orReg x y) s = .next t ∧ KeepsRegsBut x s t ∧ t.pc = s.pc + 2 ∧ OnlyRegsAndPc s t ∧
      ∀ k < 8, (t.reg x).getLsbD k = ((s.reg x).getLsbD k || (s.reg y).getLsbD k)) ∧
    (∃ t, exec (.andReg x y) s = .next t ∧ KeepsRegsBut x s t ∧ t.pc = s.pc + 2 ∧ OnlyRegsAndPc s t ∧
      ∀ k < 8, (t.reg x).getLsbD k = ((s.reg x).getLsbD k && (s.reg y).getLsbD k)) ∧
    (∃ t, exec (.xorReg x y) s = .next t ∧ KeepsRegsBut x s t ∧ t.pc = s.pc + 2 ∧ OnlyRegsAndPc s t ∧
      ∀ k < 8, (t.reg x).getLsbD k = ((s.reg x).getLsbD k ^^ (s.reg y).getLsbD k))

/-- `ADD Vx,Vy`: the destination takes the sum modulo 256, also when it is `VF`; else `VF` is 1 exactly when the sum
passes 255 (R126; which write stands when `x` is 15 is the spec's decision D12, R37). -/
def Obligations.AddRegistersSetsCarry : Prop :=
  ∀ (x y : Reg) (s : State),
    ∃ t, exec (.addReg x y) s = .next t ∧ (t.reg x).toNat = ((s.reg x).toNat + (s.reg y).toNat) % 256 ∧
      (x ≠ VF → t.reg VF = if 255 < (s.reg x).toNat + (s.reg y).toNat then 1 else 0) ∧
      KeepsRegsButFlag x s t ∧ t.pc = s.pc + 2 ∧ OnlyRegsAndPc s t

/-- `SUB` and `SUBN`: the destination takes the wrapped difference, also when it is `VF`; else `VF` is 1 exactly when
there is no borrow, equal operands included (R127, R129; D12 when `x` is 15). -/
def Obligations.SubtractionsSetNoBorrow : Prop :=
  ∀ (x y : Reg) (s : State),
    (∃ t, exec (.subReg x y) s = .next t ∧ (t.reg x).toNat = ((s.reg x).toNat + 256 - (s.reg y).toNat) % 256 ∧
      (x ≠ VF → t.reg VF = if (s.reg y).toNat ≤ (s.reg x).toNat then 1 else 0) ∧
      KeepsRegsButFlag x s t ∧ t.pc = s.pc + 2 ∧ OnlyRegsAndPc s t) ∧
    (∃ t, exec (.subn x y) s = .next t ∧ (t.reg x).toNat = ((s.reg y).toNat + 256 - (s.reg x).toNat) % 256 ∧
      (x ≠ VF → t.reg VF = if (s.reg x).toNat ≤ (s.reg y).toNat then 1 else 0) ∧
      KeepsRegsButFlag x s t ∧ t.pc = s.pc + 2 ∧ OnlyRegsAndPc s t)

/-- `SHR` halves and `SHL` doubles modulo 256 in place, whatever the field `y`; `VF` takes the bit shifted out as 0 or
1, unless `x` is 15, where the destination stands (R128, R130, R75; D11, D12, D13). -/
def Obligations.ShiftsInPlaceSetShiftedOutBit : Prop :=
  ∀ (x y : Reg) (s : State),
    (∃ t, exec (.shr x y) s = .next t ∧ (t.reg x).toNat = (s.reg x).toNat / 2 ∧
      (x ≠ VF → (t.reg VF).toNat = (s.reg x).toNat % 2) ∧
      KeepsRegsButFlag x s t ∧ t.pc = s.pc + 2 ∧ OnlyRegsAndPc s t) ∧
    (∃ t, exec (.shl x y) s = .next t ∧ (t.reg x).toNat = (s.reg x).toNat * 2 % 256 ∧
      (x ≠ VF → (t.reg VF).toNat = (s.reg x).toNat / 128) ∧
      KeepsRegsButFlag x s t ∧ t.pc = s.pc + 2 ∧ OnlyRegsAndPc s t)

/-- The flag values of the six instructions of R35, each where its destination is not `VF` itself (`DRW` has none). -/
def Obligations.FlagTable : Prop :=
  ∀ (x y : Reg) (n : Nibble) (s : State),
    (x ≠ VF →
      (∃ t, exec (.addReg x y) s = .next t ∧
        t.reg VF = if 255 < (s.reg x).toNat + (s.reg y).toNat then 1 else 0) ∧
      (∃ t, exec (.subReg x y) s = .next t ∧ t.reg VF = if (s.reg y).toNat ≤ (s.reg x).toNat then 1 else 0) ∧
      (∃ t, exec (.subn x y) s = .next t ∧ t.reg VF = if (s.reg x).toNat ≤ (s.reg y).toNat then 1 else 0) ∧
      (∃ t, exec (.shr x y) s = .next t ∧ t.reg VF = if (s.reg x).getLsbD 0 then 1 else 0) ∧
      (∃ t, exec (.shl x y) s = .next t ∧ t.reg VF = if (s.reg x).getLsbD 7 then 1 else 0)) ∧
    (¬ OutOfRange s n.toNat →
      ∃ t, exec (.drw x y n) s = .next t ∧ (t.reg VF = 0 ∨ t.reg VF = 1) ∧
        (t.reg VF = 1 ↔ ∃ r c, pixel s.fb r c = true ∧ pixel t.fb r c = false))

/-- `RND Vx,kk` sets `V[x]` to `kk` masked with the next free byte, whatever that byte is: no bit outside `kk` is set
(R131, R40, D21). That the next draw is another free byte is the model's counter (log entry 1). -/
def Obligations.RndMasksAFreeByte : Prop :=
  ∀ (x : Reg) (kk : Byte) (s : State),
    ∃ t, exec (.rnd x kk) s = .next t ∧ t.reg x = kk &&& Config.rnd s.draws ∧ t.reg x &&& ~~~kk = 0 ∧
      t.draws = s.draws + 1 ∧ KeepsRegsBut x s t ∧ t.pc = s.pc + 2 ∧ t.i = s.i ∧ KeepsStack s t ∧
      KeepsTimers s t ∧ t.fb = s.fb ∧ KeepsHostSide s t ∧ t.fault = s.fault ∧ KeepsMemory s t

/-! ### Index register and memory (43_index_memory.md) -/

/-- `LD I,nnn`, `ADD I,Vx` (16-bit wrap, no flag) and `LD F,Vx` (times 5, no mask) set `I` and nothing else but `pc`
(R140 to R142; D10, D23). -/
def Obligations.IndexInstructionsSetIndex : Prop :=
  ∀ (nnn : Addr12) (x : Reg) (s : State),
    (∃ t, exec (.ldI nnn) s = .next t ∧ t.i.toNat = nnn.toNat ∧ t.pc = s.pc + 2 ∧ OnlyPc s { t with i := s.i }) ∧
    (∃ t, exec (.addI x) s = .next t ∧ t.i.toNat = (s.i.toNat + (s.reg x).toNat) % 65536 ∧ t.pc = s.pc + 2 ∧
      OnlyPc s { t with i := s.i }) ∧
    (∃ t, exec (.ldF x) s = .next t ∧ t.i.toNat = (s.reg x).toNat * 5 ∧ t.pc = s.pc + 2 ∧
      OnlyPc s { t with i := s.i })

/-- `LD B,Vx` in range stores the three decimal digits of `V[x]`, the hundreds at `I`; every other byte and all else
but `pc` stays (R143; D8, D14). -/
def Obligations.BcdStoresThreeDigits : Prop :=
  ∀ (x : Reg) (s : State), s.mem.wf = true → ¬ OutOfRange s 3 →
    ∃ t, exec (.ldB x) s = .next t ∧
      (t.byte s.i.toNat).toNat = (s.reg x).toNat / 100 ∧
      (t.byte (s.i.toNat + 1)).toNat = (s.reg x).toNat / 10 % 10 ∧
      (t.byte (s.i.toNat + 2)).toNat = (s.reg x).toNat % 10 ∧
      KeepsMemoryOutside s.i.toNat 3 s t ∧ t.pc = s.pc + 2 ∧ KeepsRegs s t ∧ KeepsSpecials s t

/-- `LD [I],Vx` in range stores `V[0]` to `V[x]` at `I` and on; every other byte and all else but `pc` stays (R144;
D8, D14). -/
def Obligations.StoreRegistersWritesRange : Prop :=
  ∀ (x : Reg) (s : State), s.mem.wf = true → ¬ OutOfRange s (x.toNat + 1) →
    ∃ t, exec (.stRegs x) s = .next t ∧
      (∀ r : Reg, r.toNat ≤ x.toNat → t.byte (s.i.toNat + r.toNat) = s.reg r) ∧
      KeepsMemoryOutside s.i.toNat (x.toNat + 1) s t ∧ t.pc = s.pc + 2 ∧ KeepsRegs s t ∧ KeepsSpecials s t

/-- `LD Vx,[I]` in range loads `V[0]` to `V[x]` from `I` and on; the registers above `x` and all else but `pc` stay
(R145; D8, D14). -/
def Obligations.LoadRegistersReadsRange : Prop :=
  ∀ (x : Reg) (s : State), ¬ OutOfRange s (x.toNat + 1) →
    ∃ t, exec (.ldRegs x) s = .next t ∧
      (∀ r : Reg, r.toNat ≤ x.toNat → t.reg r = s.byte (s.i.toNat + r.toNat)) ∧
      (∀ r : Reg, x.toNat < r.toNat → t.reg r = s.reg r) ∧ t.pc = s.pc + 2 ∧ OnlyRegsAndPc s t

/-- Registers stored by `LD [I],Vx` come back with `LD Vx,[I]` from the same `I`, whatever the registers held in
between, and registers above `x` keep what they hold (vector S6; R144, R145). -/
def Obligations.StoreThenLoadRestoresRegisters : Prop :=
  ∀ (x : Reg) (s : State), s.mem.wf = true → ¬ OutOfRange s (x.toNat + 1) →
    ∃ t, exec (.stRegs x) s = .next t ∧
      ∀ u : State, u.mem = t.mem → u.i = t.i →
        ∃ v, exec (.ldRegs x) u = .next v ∧
          ∀ r : Reg, v.reg r = if r.toNat ≤ x.toNat then s.reg r else u.reg r

/-- An access whose last address is 4096 or more takes DataFault whole: the latch records the instruction's word, and
no byte, register or pixel changes (R59, R192; D5, D8). -/
def Obligations.DataFaultIsTakenWhole : Prop :=
  ∀ (x y : Reg) (n : Nibble) (s : State),
    (OutOfRange s n.toNat → exec (.drw x y n) s = .next (faulted .dataFault (0xD#4 ++ x ++ y ++ n) s)) ∧
    (OutOfRange s 3 → exec (.ldB x) s = .next (faulted .dataFault (0xF#4 ++ x ++ 0x33#8) s)) ∧
    (OutOfRange s (x.toNat + 1) →
      exec (.stRegs x) s = .next (faulted .dataFault (0xF#4 ++ x ++ 0x55#8) s) ∧
      exec (.ldRegs x) s = .next (faulted .dataFault (0xF#4 ++ x ++ 0x65#8) s))

/-! ### Display (44_display.md) -/

/-- `CLS` turns every pixel off and writes no flag (R160). -/
def Obligations.ClsTurnsEveryPixelOff : Prop :=
  ∀ s : State, ∃ t, exec .cls s = .next t ∧ (∀ r c, pixel t.fb r c = false) ∧ t.pc = s.pc + 2 ∧
    OnlyPc s { t with fb := s.fb }

/-- The rasterizer: for every source bit the target pixel, wrapped in both directions, takes the XOR with it, and a
pixel that is no target keeps its value (R161). -/
def Obligations.RasterizerXorsEveryTarget : Prop :=
  ∀ (fb : Bitmap) (x0 y0 : Byte) (rows : List Byte), rows.length ≤ 15 →
    Drawn fb (draw fb x0.toNat y0.toNat rows) x0.toNat y0.toNat rows

/-- A draw collides if and only if some target pixel was on and its source bit is 1 (R162). -/
def Obligations.CollisionIsALitPixelHit : Prop :=
  ∀ (fb : Bitmap) (x0 y0 : Byte) (rows : List Byte), rows.length ≤ 15 →
    (collides fb x0.toNat y0.toNat rows = true ↔ HitsLitPixel fb x0.toNat y0.toNat rows)

/-- `DRW Vx,Vy,n` in range draws the `n` bytes from `I` on at the pre-state coordinates and always sets `VF` to the
collision; with `n = 0` no pixel changes; nothing else changes but `pc` (R163, R133; D12 for coordinates in `VF`). -/
def Obligations.DrwDrawsAndReportsCollision : Prop :=
  ∀ (x y : Reg) (n : Nibble) (s : State) (rows : List Byte), ¬ OutOfRange s n.toNat →
    rows = (List.range n.toNat).map (fun r => s.byte (s.i.toNat + r)) →
    ∃ t, exec (.drw x y n) s = .next t ∧
      Drawn s.fb t.fb (s.reg x).toNat (s.reg y).toNat rows ∧
      (HitsLitPixel s.fb (s.reg x).toNat (s.reg y).toNat rows → t.reg VF = 1) ∧
      (¬ HitsLitPixel s.fb (s.reg x).toNat (s.reg y).toNat rows → t.reg VF = 0) ∧
      KeepsRegsBut VF s t ∧ t.pc = s.pc + 2 ∧ OnlyRegsAndPc s { t with fb := s.fb }

/-- Drawing the same sprite twice restores the bitmap, and the second draw collides when the first one did not and the
sprite has a 1 bit (R163, vector S8). -/
def Obligations.DrawingTwiceRestoresBitmap : Prop :=
  ∀ (fb : Bitmap) (x0 y0 : Byte) (rows : List Byte), rows.length ≤ 15 →
    draw (draw fb x0.toNat y0.toNat rows) x0.toNat y0.toNat rows = fb ∧
    (collides fb x0.toNat y0.toNat rows = false → (∃ b ∈ rows, b ≠ 0) →
      collides (draw fb x0.toNat y0.toNat rows) x0.toNat y0.toNat rows = true)

/-! ### Keypad and timers (45_keypad_timers.md, 60_exceptions.md) -/

/-- `SKP` skips when the key that `V[x]` names is down, `SKNP` when it is up; only `pc` changes (R170, R171, R176). -/
def Obligations.KeySkipsQueryOneKey : Prop :=
  ∀ (x : Reg) (k : Fin 16) (s : State), (s.reg x).toNat = k.val →
    (∃ t, exec (.skp x) s = .next t ∧ OnlyPc s t ∧ t.pc = if s.key[k] = true then s.pc + 4 else s.pc + 2) ∧
    (∃ t, exec (.sknp x) s = .next t ∧ OnlyPc s t ∧ t.pc = if s.key[k] = true then s.pc + 2 else s.pc + 4)

/-- `SKP` and `SKNP` with a symbol above 15 take InvalidKey; the latch records the word and nothing else changes (R170,
R171, R195; D5). -/
def Obligations.InvalidKeyFaults : Prop :=
  ∀ (x : Reg) (s : State), 15 < (s.reg x).toNat →
    exec (.skp x) s = .next (faulted .invalidKey (0xE#4 ++ x ++ 0x9E#8) s) ∧
    exec (.sknp x) s = .next (faulted .invalidKey (0xE#4 ++ x ++ 0xA1#8) s)

/-- `LD Vx,K` changes nothing at all while no key is down; else it loads the lowest key that is down and advances
(R172). -/
def Obligations.KeyWaitTakesLowestKey : Prop :=
  ∀ (x : Reg) (s : State),
    ((∀ k : Fin 16, s.key[k] = false) → exec (.ldVxK x) s = .next s) ∧
    (∀ k : Fin 16, s.key[k] = true → (∀ j : Fin 16, j < k → s.key[j] = false) →
      ∃ t, exec (.ldVxK x) s = .next t ∧ (t.reg x).toNat = k.val ∧ KeepsRegsBut x s t ∧ t.pc = s.pc + 2 ∧
        OnlyRegsAndPc s t)

/-- The delay timer is written by `LD DT,Vx`, read by `LD Vx,DT`, decremented by `tick` toward zero and never below,
and no other instruction touches it: none writes it, and another value of `DT` changes no effect of any of them but
the value of `DT` itself (R29; that no other instruction reads it is an inference from the instructions R29 lists). The
frames take in the model's own fields (log entries 1 and 2), which no rule knows. -/
def Obligations.DelayTimerRule : Prop :=
  (∀ (x : Reg) (s : State), ∃ t, exec (.ldDtVx x) s = .next t ∧ t.dt = s.reg x ∧ t.pc = s.pc + 2 ∧
    OnlyPc s { t with dt := s.dt }) ∧
  (∀ (x : Reg) (s : State), ∃ t, exec (.ldVxDt x) s = .next t ∧ t.reg x = s.dt ∧ KeepsRegsBut x s t ∧
    t.pc = s.pc + 2 ∧ OnlyRegsAndPc s t) ∧
  (∀ s : State, ∃ t, present .tick s = .next t ∧ t.dt.toNat = s.dt.toNat - 1) ∧
  (∀ (i : Instr) (s : State), (∀ x, i ≠ .ldDtVx x) → ∃ t, exec i s = .next t ∧ t.dt = s.dt) ∧
  (∀ (i : Instr) (s : State) (b : Byte), (∀ x, i ≠ .ldVxDt x) → ∃ t, exec i s = .next t ∧
    ∃ u, exec i { s with dt := b } = .next u ∧ { u with dt := t.dt } = t ∧
      (u.dt = b ∨ ∃ x, i = .ldDtVx x ∧ u.dt = t.dt))

/-- The sound timer is written by `LD ST,Vx` and decremented by `tick` under the same rule; no instruction reads it:
another value of `ST` changes no effect of any instruction but the value of `ST` itself (R30). The level the host sees
of it is on exactly when it is not zero (R212, decision D22, log entries 17 and 18). -/
def Obligations.SoundTimerRule : Prop :=
  (∀ (x : Reg) (s : State), ∃ t, exec (.ldStVx x) s = .next t ∧ t.st = s.reg x ∧ t.pc = s.pc + 2 ∧
    OnlyPc s { t with st := s.st }) ∧
  (∀ s : State, ∃ t, present .tick s = .next t ∧ t.st.toNat = s.st.toNat - 1) ∧
  (∀ (i : Instr) (s : State) (b : Byte), ∃ t, exec i s = .next t ∧
    ∃ u, exec i { s with st := b } = .next u ∧ { u with st := t.st } = t ∧
      (u.st = b ∨ ∃ x, i = .ldStVx x ∧ u.st = t.st)) ∧
  (∀ s : State, s.soundOn = true ↔ s.st.toNat ≠ 0)

/-- `tick` lowers each timer that is not zero by 1, each on its own, and changes nothing else, on every state: faulted,
waiting or not (R210). That `nothing else` takes in the model's own fields is log entries 1 and 2. -/
def Obligations.TickDecrementsEachTimer : Prop :=
  ∀ s : State, ∃ t, present .tick s = .next t ∧
    (s.dt.toNat ≠ 0 → t.dt.toNat + 1 = s.dt.toNat) ∧ (s.dt.toNat = 0 → t.dt.toNat = 0) ∧
    (s.st.toNat ≠ 0 → t.st.toNat + 1 = s.st.toNat) ∧ (s.st.toNat = 0 → t.st.toNat = 0) ∧
    t.pc = s.pc ∧ OnlyPc s { t with dt := s.dt, st := s.st }

/-- `key_set(k,b)` sets that key flag and nothing else, on every state; every sequence of such events is admitted, and
some sequence reaches every combination of key states with nothing else changed (R214), the model's own fields among it
(log entries 1 and 2). -/
def Obligations.KeySetWritesOneKey : Prop :=
  (∀ (k : Nibble) (b : Bool) (s : State), ∃ t, present (.keySet k b) s = .next t ∧
    (∀ j : Fin 16, t.key[j] = if j.val = k.toNat then b else s.key[j]) ∧ t.pc = s.pc ∧
    OnlyPc s { t with key := s.key }) ∧
  (∀ (s : State) (ks : List (Nibble × Bool)), ∃ t, Leave (keySets ks) s t) ∧
  (∀ (s : State) (keys : Vector Bool 16), ∃ ks, Leave (keySets ks) s { s with key := keys })

/-- `fb_read` returns all 2048 pixels and changes nothing (R213). That what it returns is the view `State.fbRead`, a list
of rows, is the model's choice (log entry 18). -/
def Obligations.FbReadReturnsEveryPixel : Prop :=
  ∀ s : State, present .fbRead s = .next s ∧ s.fbRead.length = 32 ∧
    ∀ (r : Fin 32) (c : Fin 64), ∃ row, s.fbRead[r.val]? = some row ∧ row.length = 64 ∧
      row[c.val]? = some (pixel s.fb r c)

/-! ### Reset and load (70_reset_and_hazards.md) -/

/-- `reset` from any state: every piece of state at its reset value, memory the font and then zeros, keys unchanged
(R230, R41; D4 for the font's bytes, D5 for the latch, D19 for the keys). The model's own fields go on (log
entries 1 and 2). -/
def Obligations.ResetEventClearsAllButKeys : Prop :=
  ∀ s : State, ∃ t, present .reset s = .next t ∧ (∀ r, t.reg r = 0) ∧ t.i = 0 ∧ t.pc.toNat = 0x200 ∧
    (∀ k : Fin 16, t.stack[k] = 0) ∧ t.sp.val = 0 ∧ t.dt = 0 ∧ t.st = 0 ∧
    (∀ a, t.byte a = font.getD a 0) ∧ (∀ r c, pixel t.fb r c = false) ∧ t.fault = ⟨.none, 0, 0⟩ ∧ t.key = s.key ∧
    t.draws = s.draws ∧ KeepsOrder s t

/-- `load(image)` from any state: the reset state with the image's first 3584 bytes at 0x200 and on; the font, the
reserved bytes and what lies after the image are as after `reset`, and what does not fit is dropped (R232). Which bytes
the font has is said by PowerOnState (D4), and the model's own fields are as after `reset` too (log entries 1 and 2). -/
def Obligations.LoadPlacesImage : Prop :=
  ∀ (s : State) (image : List Byte), ∃ t, present (.load image) s = .next t ∧
    (∀ i : Nat, i < min image.length 3584 → t.byte (0x200 + i) = image.getD i 0) ∧
    (∀ a, (a < 0x200 ∨ 0x200 + min image.length 3584 ≤ a) → t.byte a = font.getD a 0) ∧
    ∃ r, present .reset s = .next r ∧ { t with mem := r.mem } = r

/-- The state at power-on: the reset values of R41 with every key released (R42; D5, D19, D20), and the font, here and
after every reset and load, is the table of R56, glyph by glyph (bytes that the spec supplies itself, D4, log entry 5).
The model's own fields at reset are log entries 1 and 2, and nothing is said of them. -/
def Obligations.PowerOnState : Prop :=
  (∀ r, State.reset.reg r = 0) ∧ State.reset.i = 0 ∧ State.reset.pc.toNat = 0x200 ∧
  (∀ k : Fin 16, State.reset.stack[k] = 0) ∧ State.reset.sp.val = 0 ∧ State.reset.dt = 0 ∧ State.reset.st = 0 ∧
  (∀ a, State.reset.byte a = font.getD a 0) ∧ font = glyphs.flatten ∧ glyphs.length = 16 ∧
  (∀ g ∈ glyphs, g.length = 5) ∧
  (∀ r c, pixel State.reset.fb r c = false) ∧ (∀ k : Fin 16, State.reset.key[k] = false) ∧
  State.reset.fault = ⟨.none, 0, 0⟩
end

