-- ==== Sys2Proof/Laws/Decode.lean ====
section
/-! SUPPORT. Fields of assembled words, words of fields, and how instruction words of each format decode. -/

namespace Sys2Proof

/-! ### The fields of a word in each format (R71) -/

@[simp] theorem majorOf_formatNNN (m : Nibble) (a : Addr12) : majorOf (formatNNN m a) = m := by
  apply BitVec.eq_of_getLsbD_eq
  intro i hi
  simp only [majorOf, formatNNN, BitVec.getLsbD_extractLsb', BitVec.getLsbD_append]
  simp [hi]

@[simp] theorem nnnOf_formatNNN (m : Nibble) (a : Addr12) : nnnOf (formatNNN m a) = a := by
  apply BitVec.eq_of_getLsbD_eq
  intro i hi
  simp only [nnnOf, formatNNN, BitVec.getLsbD_extractLsb', BitVec.getLsbD_append]
  simp [hi]

@[simp] theorem majorOf_formatXKK (m : Nibble) (x : Reg) (k : Byte) : majorOf (formatXKK m x k) = m := by
  apply BitVec.eq_of_getLsbD_eq
  intro i hi
  simp only [majorOf, formatXKK, BitVec.getLsbD_extractLsb', BitVec.getLsbD_append]
  have h1 : ¬ 12 + i < 8 := by omega
  have h2 : ¬ 12 + i - 8 < 4 := by omega
  have h3 : 12 + i - 8 - 4 = i := by omega
  simp [hi, h1, h2, h3]

@[simp] theorem xOf_formatXKK (m : Nibble) (x : Reg) (k : Byte) : xOf (formatXKK m x k) = x := by
  apply BitVec.eq_of_getLsbD_eq
  intro i hi
  simp only [xOf, formatXKK, BitVec.getLsbD_extractLsb', BitVec.getLsbD_append]
  simp [hi]

@[simp] theorem kkOf_formatXKK (m : Nibble) (x : Reg) (k : Byte) : kkOf (formatXKK m x k) = k := by
  apply BitVec.eq_of_getLsbD_eq
  intro i hi
  simp only [kkOf, formatXKK, BitVec.getLsbD_extractLsb', BitVec.getLsbD_append]
  simp [hi]

@[simp] theorem majorOf_formatXYN (m : Nibble) (x y : Reg) (n : Nibble) : majorOf (formatXYN m x y n) = m := by
  apply BitVec.eq_of_getLsbD_eq
  intro i hi
  simp only [majorOf, formatXYN, BitVec.getLsbD_extractLsb', BitVec.getLsbD_append]
  have h1 : ¬ 12 + i < 4 := by omega
  have h2 : ¬ 12 + i - 4 < 4 := by omega
  have h3 : ¬ 12 + i - 4 - 4 < 4 := by omega
  have h4 : 12 + i - 4 - 4 - 4 = i := by omega
  simp [hi, h1, h2, h3, h4]

@[simp] theorem xOf_formatXYN (m : Nibble) (x y : Reg) (n : Nibble) : xOf (formatXYN m x y n) = x := by
  apply BitVec.eq_of_getLsbD_eq
  intro i hi
  simp only [xOf, formatXYN, BitVec.getLsbD_extractLsb', BitVec.getLsbD_append]
  have h1 : ¬ 8 + i < 4 := by omega
  have h2 : ¬ 8 + i - 4 < 4 := by omega
  have h3 : 8 + i - 4 - 4 = i := by omega
  simp [hi, h1, h2, h3]

@[simp] theorem yOf_formatXYN (m : Nibble) (x y : Reg) (n : Nibble) : yOf (formatXYN m x y n) = y := by
  apply BitVec.eq_of_getLsbD_eq
  intro i hi
  simp only [yOf, formatXYN, BitVec.getLsbD_extractLsb', BitVec.getLsbD_append]
  simp [hi]

@[simp] theorem nOf_formatXYN (m : Nibble) (x y : Reg) (n : Nibble) : nOf (formatXYN m x y n) = n := by
  apply BitVec.eq_of_getLsbD_eq
  intro i hi
  simp only [nOf, formatXYN, BitVec.getLsbD_extractLsb', BitVec.getLsbD_append]
  simp [hi]

/-! ### A word is its fields put together -/

theorem formatNNN_of_fields (w : Word) : formatNNN (majorOf w) (nnnOf w) = w := by
  apply BitVec.eq_of_getLsbD_eq
  intro i hi
  simp only [majorOf, nnnOf, formatNNN, BitVec.getLsbD_extractLsb', BitVec.getLsbD_append]
  by_cases h : i < 12
  · simp [h]
  · have h2 : i - 12 < 4 := by omega
    have h3 : 12 + (i - 12) = i := by omega
    simp [h, h2, h3]

theorem formatXKK_of_fields (w : Word) : formatXKK (majorOf w) (xOf w) (kkOf w) = w := by
  apply BitVec.eq_of_getLsbD_eq
  intro i hi
  simp only [majorOf, xOf, kkOf, formatXKK, BitVec.getLsbD_extractLsb', BitVec.getLsbD_append]
  by_cases h : i < 8
  · simp [h]
  · by_cases h' : i - 8 < 4
    · have h3 : 8 + (i - 8) = i := by omega
      simp [h, h', h3]
    · have h2 : i - 8 - 4 < 4 := by omega
      have h3 : 12 + (i - 8 - 4) = i := by omega
      simp [h, h', h2, h3]

theorem formatXYN_of_fields (w : Word) : formatXYN (majorOf w) (xOf w) (yOf w) (nOf w) = w := by
  apply BitVec.eq_of_getLsbD_eq
  intro i hi
  simp only [majorOf, xOf, yOf, nOf, formatXYN, BitVec.getLsbD_extractLsb', BitVec.getLsbD_append]
  by_cases h : i < 4
  · simp [h]
  · by_cases h' : i - 4 < 4
    · have h3 : 4 + (i - 4) = i := by omega
      simp [h, h', h3]
    · by_cases h'' : i - 4 - 4 < 4
      · have h3 : 8 + (i - 4 - 4) = i := by omega
        simp [h, h', h'', h3]
      · have h2 : i - 4 - 4 - 4 < 4 := by omega
        have h3 : 12 + (i - 4 - 4 - 4) = i := by omega
        simp [h, h', h'', h2, h3]

/-! ### Words as four nibbles: masking and comparing them field by field (R73, R74) -/

theorem and_formatXYN (m x y n m' x' y' n' : Nibble) :
    formatXYN m x y n &&& formatXYN m' x' y' n' = formatXYN (m &&& m') (x &&& x') (y &&& y') (n &&& n') := by
  apply BitVec.eq_of_getLsbD_eq
  intro i hi
  simp only [formatXYN, BitVec.getLsbD_and, BitVec.getLsbD_append]
  repeat' split
  all_goals rfl

theorem formatXYN_inj (m x y n m' x' y' n' : Nibble) :
    formatXYN m x y n = formatXYN m' x' y' n' ↔ m = m' ∧ x = x' ∧ y = y' ∧ n = n' := by
  constructor
  · intro h
    exact ⟨by simpa using congrArg majorOf h, by simpa using congrArg xOf h, by simpa using congrArg yOf h,
      by simpa using congrArg nOf h⟩
  · rintro ⟨rfl, rfl, rfl, rfl⟩
    rfl

theorem formatXKK_eq_formatXYN (m : Nibble) (x : Reg) (k : Byte) :
    formatXKK m x k = formatXYN m x (k.extractLsb' 4 4) (k.extractLsb' 0 4) := by
  apply BitVec.eq_of_getLsbD_eq
  intro i hi
  simp only [formatXKK, formatXYN, BitVec.getLsbD_append, BitVec.getLsbD_extractLsb']
  by_cases h : i < 4
  · have h8 : i < 8 := by omega
    simp [h, h8]
  · by_cases h8 : i < 8
    · have h4 : i - 4 < 4 := by omega
      have e : 4 + (i - 4) = i := by omega
      simp [h, h8, h4, e]
    · have h4 : ¬ i - 4 < 4 := by omega
      have e : i - 4 - 4 = i - 8 := by omega
      simp [h, h8, h4, e]

theorem formatNNN_eq_formatXYN (m : Nibble) (a : Addr12) :
    formatNNN m a = formatXYN m (a.extractLsb' 8 4) (a.extractLsb' 4 4) (a.extractLsb' 0 4) := by
  apply BitVec.eq_of_getLsbD_eq
  intro i hi
  simp only [formatNNN, formatXYN, BitVec.getLsbD_append, BitVec.getLsbD_extractLsb']
  by_cases h : i < 4
  · have h12 : i < 12 := by omega
    simp [h, h12]
  · by_cases h8 : i < 8
    · have h12 : i < 12 := by omega
      have h4 : i - 4 < 4 := by omega
      have e : 4 + (i - 4) = i := by omega
      simp [h, h12, h4, e]
    · by_cases h12 : i < 12
      · have h4 : ¬ i - 4 < 4 := by omega
        have h44 : i - 4 - 4 < 4 := by omega
        have e : 8 + (i - 4 - 4) = i := by omega
        simp [h, h12, h4, h44, e]
      · have h4 : ¬ i - 4 < 4 := by omega
        have h44 : ¬ i - 4 - 4 < 4 := by omega
        have e : i - 4 - 4 - 4 = i - 12 := by omega
        simp [h, h12, h4, h44, e]

/-- A row selects a word of given nibbles exactly when each masked nibble is the pattern's. -/
theorem selects_formatXYN (k : Nat) (a b c d a' b' c' d' m x y n : Nibble) :
    OpcodeRow.selects ⟨k, formatXYN a b c d, formatXYN a' b' c' d'⟩ (formatXYN m x y n) = true ↔
      m &&& a = a' ∧ x &&& b = b' ∧ y &&& c = c' ∧ n &&& d = d' := by
  simp only [OpcodeRow.selects, decide_eq_true_eq, and_formatXYN, formatXYN_inj]

/-! ### Bytes of a word (R53) -/

theorem wordOfBytes_of_word (w : Word) : wordOfBytes (w.extractLsb' 8 8) (w.extractLsb' 0 8) = w := by
  apply BitVec.eq_of_getLsbD_eq
  intro i hi
  simp only [wordOfBytes, BitVec.getLsbD_append, BitVec.getLsbD_extractLsb']
  by_cases h : i < 8
  · simp [h]
  · have h2 : i - 8 < 8 := by omega
    have h3 : 8 + (i - 8) = i := by omega
    simp [h, h2, h3]

/-- A list of at least two bytes decodes to the instruction of its first word. -/
@[simp] theorem decodeBytes_cons_cons (hi lo : Byte) (rest : List Byte) :
    decodeBytes (hi :: lo :: rest) = .ok (decodeWord (wordOfBytes hi lo), rest) := rfl

/-- The row of the opcode table that the host asks about decodes as its word does. -/
theorem decodeTableWord_eq (nbits w : Nat) : decodeTableWord nbits w = some (decodeWord (tableWord nbits w)) := by
  simp [decodeTableWord, bytesOfWord, wordOfBytes_of_word]

/-! ### The sixteen major opcodes -/

/-- A nibble is one of its sixteen values: how a proof splits on the major opcode or a function code. -/
theorem nibble_cases (m : Nibble) :
    m = 0x0 ∨ m = 0x1 ∨ m = 0x2 ∨ m = 0x3 ∨ m = 0x4 ∨ m = 0x5 ∨ m = 0x6 ∨ m = 0x7 ∨
      m = 0x8 ∨ m = 0x9 ∨ m = 0xA ∨ m = 0xB ∨ m = 0xC ∨ m = 0xD ∨ m = 0xE ∨ m = 0xF := by
  have : ∀ m : Nibble, m = 0x0 ∨ m = 0x1 ∨ m = 0x2 ∨ m = 0x3 ∨ m = 0x4 ∨ m = 0x5 ∨ m = 0x6 ∨ m = 0x7 ∨
      m = 0x8 ∨ m = 0x9 ∨ m = 0xA ∨ m = 0xB ∨ m = 0xC ∨ m = 0xD ∨ m = 0xE ∨ m = 0xF := by decide
  exact this m

/-! ### Which words give `nop` -/

/-- What the decoder calls unrecognized it keeps whole. -/
theorem decodeWord_nop_inv {w u : Word} (h : decodeWord w = .nop u) : u = w := by
  unfold decodeWord decodeMajor0 decodeMajor8 decodeMajorE decodeMajorF at h
  repeat' split at h
  all_goals first | (cases h; rfl) | cases h

end Sys2Proof
end

