-- ==== Sys2Proof/Laws/Display.lean ====
section
/-! SUPPORT. The laws of the display: where a sprite row's bits land and what one row does to each pixel. -/

namespace Sys2Proof.Machine

@[simp] theorem pixel_blankBitmap (r : Fin 32) (c : Fin 64) : pixel blankBitmap r c = false := by
  simp [pixel, blankBitmap]

/-- Before it is rotated, a sprite row holds its byte in columns 0 to 7 and zeros elsewhere. -/
theorem getMsbD_placedByte (b : Byte) (j : Nat) (hj : j < 64) :
    (b.setWidth 64 <<< 56).getMsbD j = (decide (j < 8) && b.getMsbD j) := by
  by_cases h : j < 8
  · have h1 : ¬ (63 - j < 56) := by omega
    have h2 : 63 - j - 56 = 7 - j := by omega
    have h3 : 63 - j < 64 := by omega
    simp [BitVec.getMsbD, h, hj, h1, h2, h3]
  · have h1 : 63 - j < 56 := by omega
    simp [BitVec.getMsbD, h, h1]

/-- The pixel of a sprite row in column `c`: the sprite bit whose column it is, or off (R161). -/
theorem getMsbD_spriteRow (x0 : Nat) (b : Byte) (c : Fin 64) :
    (spriteRow x0 b).getMsbD c = (decide ((c + 64 - x0 % 64) % 64 < 8) && b.getMsbD ((c + 64 - x0 % 64) % 64)) := by
  have hc := c.isLt
  have hm : x0 % 64 < 64 := Nat.mod_lt _ (by decide)
  rw [spriteRow, BitVec.getMsbD_rotateRight, Config.dispW]
  rw [Nat.mod_mod]
  by_cases h : (c : Nat) < x0 % 64
  · have e1 : (64 + (c : Nat) - x0 % 64) % 64 = (c + 64 - x0 % 64) % 64 := by omega
    rw [if_pos h, e1, getMsbD_placedByte _ _ (Nat.mod_lt _ (by decide))]
    simp [hc]
  · have e1 : ((c : Nat) + 64 - x0 % 64) % 64 = c - x0 % 64 := by omega
    rw [if_neg h, e1, getMsbD_placedByte _ _ (by omega)]
    simp [hc]

/-- One sprite row toggles the pixels of its own display row where the sprite has a 1, and no other pixel. -/
theorem pixel_drawRow (fb : Bitmap) (x0 y : Nat) (b : Byte) (r : Fin 32) (c : Fin 64) :
    pixel (drawRow fb x0 y b) r c
      = if r = rowAt y then (pixel fb r c ^^ (spriteRow x0 b).getMsbD c) else pixel fb r c := by
  unfold pixel drawRow
  by_cases h : r = rowAt y
  · subst h
    simp
  · have hv : ¬ (rowAt y : Nat) = r := fun e => h (Fin.ext e.symm)
    simp [h, hv]

/-- A row drawn twice at the same place leaves the bitmap as it was. -/
theorem drawRow_drawRow (fb : Bitmap) (x0 y : Nat) (b : Byte) : drawRow (drawRow fb x0 y b) x0 y b = fb := by
  unfold drawRow
  apply Vector.ext
  intro i hi
  by_cases h : (rowAt y : Nat) = i
  · subst h
    simp
  · simp

end Sys2Proof.Machine
end

