-- ==== Sys2Proof/Laws/State.lean ====
section
/-! SUPPORT. What each update of State does to each field, one lemma a field, true by unfolding; and what the two
readers `reg` and `byte` see of an update that does not touch what they read. -/

namespace Sys2Proof.Machine

variable (s : State)

/-! ### setReg -/

@[simp] theorem State.setReg_v (r : Reg) (b : Byte) : (s.setReg r b).v = s.v.set r.toNat b r.isLt := rfl
@[simp] theorem State.setReg_i (r : Reg) (b : Byte) : (s.setReg r b).i = s.i := rfl
@[simp] theorem State.setReg_pc (r : Reg) (b : Byte) : (s.setReg r b).pc = s.pc := rfl
@[simp] theorem State.setReg_stack (r : Reg) (b : Byte) : (s.setReg r b).stack = s.stack := rfl
@[simp] theorem State.setReg_sp (r : Reg) (b : Byte) : (s.setReg r b).sp = s.sp := rfl
@[simp] theorem State.setReg_dt (r : Reg) (b : Byte) : (s.setReg r b).dt = s.dt := rfl
@[simp] theorem State.setReg_st (r : Reg) (b : Byte) : (s.setReg r b).st = s.st := rfl
@[simp] theorem State.setReg_mem (r : Reg) (b : Byte) : (s.setReg r b).mem = s.mem := rfl
@[simp] theorem State.setReg_fb (r : Reg) (b : Byte) : (s.setReg r b).fb = s.fb := rfl
@[simp] theorem State.setReg_key (r : Reg) (b : Byte) : (s.setReg r b).key = s.key := rfl
@[simp] theorem State.setReg_fault (r : Reg) (b : Byte) : (s.setReg r b).fault = s.fault := rfl
@[simp] theorem State.setReg_draws (r : Reg) (b : Byte) : (s.setReg r b).draws = s.draws := rfl
@[simp] theorem State.setReg_driver (r : Reg) (b : Byte) : (s.setReg r b).driver = s.driver := rfl
@[simp] theorem State.setReg_schedule (r : Reg) (b : Byte) : (s.setReg r b).schedule = s.schedule := rfl
@[simp] theorem State.byte_setReg (r : Reg) (b : Byte) (a' : Nat) : (s.setReg r b).byte a' = s.byte a' := rfl

/-! ### setRegs -/

@[simp] theorem State.setRegs_v (v : Vector Byte 16) : (s.setRegs v).v = v := rfl
@[simp] theorem State.setRegs_i (v : Vector Byte 16) : (s.setRegs v).i = s.i := rfl
@[simp] theorem State.setRegs_pc (v : Vector Byte 16) : (s.setRegs v).pc = s.pc := rfl
@[simp] theorem State.setRegs_stack (v : Vector Byte 16) : (s.setRegs v).stack = s.stack := rfl
@[simp] theorem State.setRegs_sp (v : Vector Byte 16) : (s.setRegs v).sp = s.sp := rfl
@[simp] theorem State.setRegs_dt (v : Vector Byte 16) : (s.setRegs v).dt = s.dt := rfl
@[simp] theorem State.setRegs_st (v : Vector Byte 16) : (s.setRegs v).st = s.st := rfl
@[simp] theorem State.setRegs_mem (v : Vector Byte 16) : (s.setRegs v).mem = s.mem := rfl
@[simp] theorem State.setRegs_fb (v : Vector Byte 16) : (s.setRegs v).fb = s.fb := rfl
@[simp] theorem State.setRegs_key (v : Vector Byte 16) : (s.setRegs v).key = s.key := rfl
@[simp] theorem State.setRegs_fault (v : Vector Byte 16) : (s.setRegs v).fault = s.fault := rfl
@[simp] theorem State.setRegs_draws (v : Vector Byte 16) : (s.setRegs v).draws = s.draws := rfl
@[simp] theorem State.setRegs_driver (v : Vector Byte 16) : (s.setRegs v).driver = s.driver := rfl
@[simp] theorem State.setRegs_schedule (v : Vector Byte 16) : (s.setRegs v).schedule = s.schedule := rfl
@[simp] theorem State.byte_setRegs (v : Vector Byte 16) (a' : Nat) : (s.setRegs v).byte a' = s.byte a' := rfl

/-! ### setIndex -/

@[simp] theorem State.setIndex_v (a : Word) : (s.setIndex a).v = s.v := rfl
@[simp] theorem State.setIndex_i (a : Word) : (s.setIndex a).i = a := rfl
@[simp] theorem State.setIndex_pc (a : Word) : (s.setIndex a).pc = s.pc := rfl
@[simp] theorem State.setIndex_stack (a : Word) : (s.setIndex a).stack = s.stack := rfl
@[simp] theorem State.setIndex_sp (a : Word) : (s.setIndex a).sp = s.sp := rfl
@[simp] theorem State.setIndex_dt (a : Word) : (s.setIndex a).dt = s.dt := rfl
@[simp] theorem State.setIndex_st (a : Word) : (s.setIndex a).st = s.st := rfl
@[simp] theorem State.setIndex_mem (a : Word) : (s.setIndex a).mem = s.mem := rfl
@[simp] theorem State.setIndex_fb (a : Word) : (s.setIndex a).fb = s.fb := rfl
@[simp] theorem State.setIndex_key (a : Word) : (s.setIndex a).key = s.key := rfl
@[simp] theorem State.setIndex_fault (a : Word) : (s.setIndex a).fault = s.fault := rfl
@[simp] theorem State.setIndex_draws (a : Word) : (s.setIndex a).draws = s.draws := rfl
@[simp] theorem State.setIndex_driver (a : Word) : (s.setIndex a).driver = s.driver := rfl
@[simp] theorem State.setIndex_schedule (a : Word) : (s.setIndex a).schedule = s.schedule := rfl
@[simp] theorem State.reg_setIndex (a : Word) (q : Reg) : (s.setIndex a).reg q = s.reg q := rfl
@[simp] theorem State.byte_setIndex (a : Word) (a' : Nat) : (s.setIndex a).byte a' = s.byte a' := rfl

/-! ### setPc -/

@[simp] theorem State.setPc_v (a : Word) : (s.setPc a).v = s.v := rfl
@[simp] theorem State.setPc_i (a : Word) : (s.setPc a).i = s.i := rfl
@[simp] theorem State.setPc_pc (a : Word) : (s.setPc a).pc = a := rfl
@[simp] theorem State.setPc_stack (a : Word) : (s.setPc a).stack = s.stack := rfl
@[simp] theorem State.setPc_sp (a : Word) : (s.setPc a).sp = s.sp := rfl
@[simp] theorem State.setPc_dt (a : Word) : (s.setPc a).dt = s.dt := rfl
@[simp] theorem State.setPc_st (a : Word) : (s.setPc a).st = s.st := rfl
@[simp] theorem State.setPc_mem (a : Word) : (s.setPc a).mem = s.mem := rfl
@[simp] theorem State.setPc_fb (a : Word) : (s.setPc a).fb = s.fb := rfl
@[simp] theorem State.setPc_key (a : Word) : (s.setPc a).key = s.key := rfl
@[simp] theorem State.setPc_fault (a : Word) : (s.setPc a).fault = s.fault := rfl
@[simp] theorem State.setPc_draws (a : Word) : (s.setPc a).draws = s.draws := rfl
@[simp] theorem State.setPc_driver (a : Word) : (s.setPc a).driver = s.driver := rfl
@[simp] theorem State.setPc_schedule (a : Word) : (s.setPc a).schedule = s.schedule := rfl
@[simp] theorem State.reg_setPc (a : Word) (q : Reg) : (s.setPc a).reg q = s.reg q := rfl
@[simp] theorem State.byte_setPc (a : Word) (a' : Nat) : (s.setPc a).byte a' = s.byte a' := rfl

/-! ### advance -/

@[simp] theorem State.advance_v : s.advance.v = s.v := rfl
@[simp] theorem State.advance_i : s.advance.i = s.i := rfl
@[simp] theorem State.advance_pc : s.advance.pc = s.pc + 2 := rfl
@[simp] theorem State.advance_stack : s.advance.stack = s.stack := rfl
@[simp] theorem State.advance_sp : s.advance.sp = s.sp := rfl
@[simp] theorem State.advance_dt : s.advance.dt = s.dt := rfl
@[simp] theorem State.advance_st : s.advance.st = s.st := rfl
@[simp] theorem State.advance_mem : s.advance.mem = s.mem := rfl
@[simp] theorem State.advance_fb : s.advance.fb = s.fb := rfl
@[simp] theorem State.advance_key : s.advance.key = s.key := rfl
@[simp] theorem State.advance_fault : s.advance.fault = s.fault := rfl
@[simp] theorem State.advance_draws : s.advance.draws = s.draws := rfl
@[simp] theorem State.advance_driver : s.advance.driver = s.driver := rfl
@[simp] theorem State.advance_schedule : s.advance.schedule = s.schedule := rfl
@[simp] theorem State.reg_advance (q : Reg) : s.advance.reg q = s.reg q := rfl
@[simp] theorem State.byte_advance (a' : Nat) : s.advance.byte a' = s.byte a' := rfl

/-! ### skipIf -/

@[simp] theorem State.skipIf_v (c : Bool) : (s.skipIf c).v = s.v := rfl
@[simp] theorem State.skipIf_i (c : Bool) : (s.skipIf c).i = s.i := rfl
@[simp] theorem State.skipIf_pc (c : Bool) : (s.skipIf c).pc = skipAddress s.pc c := rfl
@[simp] theorem State.skipIf_stack (c : Bool) : (s.skipIf c).stack = s.stack := rfl
@[simp] theorem State.skipIf_sp (c : Bool) : (s.skipIf c).sp = s.sp := rfl
@[simp] theorem State.skipIf_dt (c : Bool) : (s.skipIf c).dt = s.dt := rfl
@[simp] theorem State.skipIf_st (c : Bool) : (s.skipIf c).st = s.st := rfl
@[simp] theorem State.skipIf_mem (c : Bool) : (s.skipIf c).mem = s.mem := rfl
@[simp] theorem State.skipIf_fb (c : Bool) : (s.skipIf c).fb = s.fb := rfl
@[simp] theorem State.skipIf_key (c : Bool) : (s.skipIf c).key = s.key := rfl
@[simp] theorem State.skipIf_fault (c : Bool) : (s.skipIf c).fault = s.fault := rfl
@[simp] theorem State.skipIf_draws (c : Bool) : (s.skipIf c).draws = s.draws := rfl
@[simp] theorem State.skipIf_driver (c : Bool) : (s.skipIf c).driver = s.driver := rfl
@[simp] theorem State.skipIf_schedule (c : Bool) : (s.skipIf c).schedule = s.schedule := rfl
@[simp] theorem State.reg_skipIf (c : Bool) (q : Reg) : (s.skipIf c).reg q = s.reg q := rfl
@[simp] theorem State.byte_skipIf (c : Bool) (a' : Nat) : (s.skipIf c).byte a' = s.byte a' := rfl

/-! ### setDt -/

@[simp] theorem State.setDt_v (b : Byte) : (s.setDt b).v = s.v := rfl
@[simp] theorem State.setDt_i (b : Byte) : (s.setDt b).i = s.i := rfl
@[simp] theorem State.setDt_pc (b : Byte) : (s.setDt b).pc = s.pc := rfl
@[simp] theorem State.setDt_stack (b : Byte) : (s.setDt b).stack = s.stack := rfl
@[simp] theorem State.setDt_sp (b : Byte) : (s.setDt b).sp = s.sp := rfl
@[simp] theorem State.setDt_dt (b : Byte) : (s.setDt b).dt = b := rfl
@[simp] theorem State.setDt_st (b : Byte) : (s.setDt b).st = s.st := rfl
@[simp] theorem State.setDt_mem (b : Byte) : (s.setDt b).mem = s.mem := rfl
@[simp] theorem State.setDt_fb (b : Byte) : (s.setDt b).fb = s.fb := rfl
@[simp] theorem State.setDt_key (b : Byte) : (s.setDt b).key = s.key := rfl
@[simp] theorem State.setDt_fault (b : Byte) : (s.setDt b).fault = s.fault := rfl
@[simp] theorem State.setDt_draws (b : Byte) : (s.setDt b).draws = s.draws := rfl
@[simp] theorem State.setDt_driver (b : Byte) : (s.setDt b).driver = s.driver := rfl
@[simp] theorem State.setDt_schedule (b : Byte) : (s.setDt b).schedule = s.schedule := rfl
@[simp] theorem State.reg_setDt (b : Byte) (q : Reg) : (s.setDt b).reg q = s.reg q := rfl
@[simp] theorem State.byte_setDt (b : Byte) (a' : Nat) : (s.setDt b).byte a' = s.byte a' := rfl

/-! ### setSt -/

@[simp] theorem State.setSt_v (b : Byte) : (s.setSt b).v = s.v := rfl
@[simp] theorem State.setSt_i (b : Byte) : (s.setSt b).i = s.i := rfl
@[simp] theorem State.setSt_pc (b : Byte) : (s.setSt b).pc = s.pc := rfl
@[simp] theorem State.setSt_stack (b : Byte) : (s.setSt b).stack = s.stack := rfl
@[simp] theorem State.setSt_sp (b : Byte) : (s.setSt b).sp = s.sp := rfl
@[simp] theorem State.setSt_dt (b : Byte) : (s.setSt b).dt = s.dt := rfl
@[simp] theorem State.setSt_st (b : Byte) : (s.setSt b).st = b := rfl
@[simp] theorem State.setSt_mem (b : Byte) : (s.setSt b).mem = s.mem := rfl
@[simp] theorem State.setSt_fb (b : Byte) : (s.setSt b).fb = s.fb := rfl
@[simp] theorem State.setSt_key (b : Byte) : (s.setSt b).key = s.key := rfl
@[simp] theorem State.setSt_fault (b : Byte) : (s.setSt b).fault = s.fault := rfl
@[simp] theorem State.setSt_draws (b : Byte) : (s.setSt b).draws = s.draws := rfl
@[simp] theorem State.setSt_driver (b : Byte) : (s.setSt b).driver = s.driver := rfl
@[simp] theorem State.setSt_schedule (b : Byte) : (s.setSt b).schedule = s.schedule := rfl
@[simp] theorem State.reg_setSt (b : Byte) (q : Reg) : (s.setSt b).reg q = s.reg q := rfl
@[simp] theorem State.byte_setSt (b : Byte) (a' : Nat) : (s.setSt b).byte a' = s.byte a' := rfl

/-! ### setMem -/

@[simp] theorem State.setMem_v (m : Memory) : (s.setMem m).v = s.v := rfl
@[simp] theorem State.setMem_i (m : Memory) : (s.setMem m).i = s.i := rfl
@[simp] theorem State.setMem_pc (m : Memory) : (s.setMem m).pc = s.pc := rfl
@[simp] theorem State.setMem_stack (m : Memory) : (s.setMem m).stack = s.stack := rfl
@[simp] theorem State.setMem_sp (m : Memory) : (s.setMem m).sp = s.sp := rfl
@[simp] theorem State.setMem_dt (m : Memory) : (s.setMem m).dt = s.dt := rfl
@[simp] theorem State.setMem_st (m : Memory) : (s.setMem m).st = s.st := rfl
@[simp] theorem State.setMem_mem (m : Memory) : (s.setMem m).mem = m := rfl
@[simp] theorem State.setMem_fb (m : Memory) : (s.setMem m).fb = s.fb := rfl
@[simp] theorem State.setMem_key (m : Memory) : (s.setMem m).key = s.key := rfl
@[simp] theorem State.setMem_fault (m : Memory) : (s.setMem m).fault = s.fault := rfl
@[simp] theorem State.setMem_draws (m : Memory) : (s.setMem m).draws = s.draws := rfl
@[simp] theorem State.setMem_driver (m : Memory) : (s.setMem m).driver = s.driver := rfl
@[simp] theorem State.setMem_schedule (m : Memory) : (s.setMem m).schedule = s.schedule := rfl
@[simp] theorem State.reg_setMem (m : Memory) (q : Reg) : (s.setMem m).reg q = s.reg q := rfl

/-! ### setFb -/

@[simp] theorem State.setFb_v (fb : Bitmap) : (s.setFb fb).v = s.v := rfl
@[simp] theorem State.setFb_i (fb : Bitmap) : (s.setFb fb).i = s.i := rfl
@[simp] theorem State.setFb_pc (fb : Bitmap) : (s.setFb fb).pc = s.pc := rfl
@[simp] theorem State.setFb_stack (fb : Bitmap) : (s.setFb fb).stack = s.stack := rfl
@[simp] theorem State.setFb_sp (fb : Bitmap) : (s.setFb fb).sp = s.sp := rfl
@[simp] theorem State.setFb_dt (fb : Bitmap) : (s.setFb fb).dt = s.dt := rfl
@[simp] theorem State.setFb_st (fb : Bitmap) : (s.setFb fb).st = s.st := rfl
@[simp] theorem State.setFb_mem (fb : Bitmap) : (s.setFb fb).mem = s.mem := rfl
@[simp] theorem State.setFb_fb (fb : Bitmap) : (s.setFb fb).fb = fb := rfl
@[simp] theorem State.setFb_key (fb : Bitmap) : (s.setFb fb).key = s.key := rfl
@[simp] theorem State.setFb_fault (fb : Bitmap) : (s.setFb fb).fault = s.fault := rfl
@[simp] theorem State.setFb_draws (fb : Bitmap) : (s.setFb fb).draws = s.draws := rfl
@[simp] theorem State.setFb_driver (fb : Bitmap) : (s.setFb fb).driver = s.driver := rfl
@[simp] theorem State.setFb_schedule (fb : Bitmap) : (s.setFb fb).schedule = s.schedule := rfl
@[simp] theorem State.reg_setFb (fb : Bitmap) (q : Reg) : (s.setFb fb).reg q = s.reg q := rfl
@[simp] theorem State.byte_setFb (fb : Bitmap) (a' : Nat) : (s.setFb fb).byte a' = s.byte a' := rfl

/-! ### setKey -/

@[simp] theorem State.setKey_v (k : Nibble) (b : Bool) : (s.setKey k b).v = s.v := rfl
@[simp] theorem State.setKey_i (k : Nibble) (b : Bool) : (s.setKey k b).i = s.i := rfl
@[simp] theorem State.setKey_pc (k : Nibble) (b : Bool) : (s.setKey k b).pc = s.pc := rfl
@[simp] theorem State.setKey_stack (k : Nibble) (b : Bool) : (s.setKey k b).stack = s.stack := rfl
@[simp] theorem State.setKey_sp (k : Nibble) (b : Bool) : (s.setKey k b).sp = s.sp := rfl
@[simp] theorem State.setKey_dt (k : Nibble) (b : Bool) : (s.setKey k b).dt = s.dt := rfl
@[simp] theorem State.setKey_st (k : Nibble) (b : Bool) : (s.setKey k b).st = s.st := rfl
@[simp] theorem State.setKey_mem (k : Nibble) (b : Bool) : (s.setKey k b).mem = s.mem := rfl
@[simp] theorem State.setKey_fb (k : Nibble) (b : Bool) : (s.setKey k b).fb = s.fb := rfl
@[simp] theorem State.setKey_key (k : Nibble) (b : Bool) : (s.setKey k b).key = s.key.set k.toNat b k.isLt := rfl
@[simp] theorem State.setKey_fault (k : Nibble) (b : Bool) : (s.setKey k b).fault = s.fault := rfl
@[simp] theorem State.setKey_draws (k : Nibble) (b : Bool) : (s.setKey k b).draws = s.draws := rfl
@[simp] theorem State.setKey_driver (k : Nibble) (b : Bool) : (s.setKey k b).driver = s.driver := rfl
@[simp] theorem State.setKey_schedule (k : Nibble) (b : Bool) : (s.setKey k b).schedule = s.schedule := rfl
@[simp] theorem State.reg_setKey (k : Nibble) (b : Bool) (q : Reg) : (s.setKey k b).reg q = s.reg q := rfl
@[simp] theorem State.byte_setKey (k : Nibble) (b : Bool) (a' : Nat) : (s.setKey k b).byte a' = s.byte a' := rfl

/-! ### drawn -/

@[simp] theorem State.drawn_v : s.drawn.v = s.v := rfl
@[simp] theorem State.drawn_i : s.drawn.i = s.i := rfl
@[simp] theorem State.drawn_pc : s.drawn.pc = s.pc := rfl
@[simp] theorem State.drawn_stack : s.drawn.stack = s.stack := rfl
@[simp] theorem State.drawn_sp : s.drawn.sp = s.sp := rfl
@[simp] theorem State.drawn_dt : s.drawn.dt = s.dt := rfl
@[simp] theorem State.drawn_st : s.drawn.st = s.st := rfl
@[simp] theorem State.drawn_mem : s.drawn.mem = s.mem := rfl
@[simp] theorem State.drawn_fb : s.drawn.fb = s.fb := rfl
@[simp] theorem State.drawn_key : s.drawn.key = s.key := rfl
@[simp] theorem State.drawn_fault : s.drawn.fault = s.fault := rfl
@[simp] theorem State.drawn_draws : s.drawn.draws = s.draws + 1 := rfl
@[simp] theorem State.drawn_driver : s.drawn.driver = s.driver := rfl
@[simp] theorem State.drawn_schedule : s.drawn.schedule = s.schedule := rfl
@[simp] theorem State.reg_drawn (q : Reg) : s.drawn.reg q = s.reg q := rfl
@[simp] theorem State.byte_drawn (a' : Nat) : s.drawn.byte a' = s.byte a' := rfl

/-! ### raise -/

@[simp] theorem State.raise_v (c : Cause) (w : Word) : (s.raise c w).v = s.v := rfl
@[simp] theorem State.raise_i (c : Cause) (w : Word) : (s.raise c w).i = s.i := rfl
@[simp] theorem State.raise_pc (c : Cause) (w : Word) : (s.raise c w).pc = s.pc := rfl
@[simp] theorem State.raise_stack (c : Cause) (w : Word) : (s.raise c w).stack = s.stack := rfl
@[simp] theorem State.raise_sp (c : Cause) (w : Word) : (s.raise c w).sp = s.sp := rfl
@[simp] theorem State.raise_dt (c : Cause) (w : Word) : (s.raise c w).dt = s.dt := rfl
@[simp] theorem State.raise_st (c : Cause) (w : Word) : (s.raise c w).st = s.st := rfl
@[simp] theorem State.raise_mem (c : Cause) (w : Word) : (s.raise c w).mem = s.mem := rfl
@[simp] theorem State.raise_fb (c : Cause) (w : Word) : (s.raise c w).fb = s.fb := rfl
@[simp] theorem State.raise_key (c : Cause) (w : Word) : (s.raise c w).key = s.key := rfl
@[simp] theorem State.raise_fault (c : Cause) (w : Word) : (s.raise c w).fault = ⟨c, s.pc, w⟩ := rfl
@[simp] theorem State.raise_draws (c : Cause) (w : Word) : (s.raise c w).draws = s.draws := rfl
@[simp] theorem State.raise_driver (c : Cause) (w : Word) : (s.raise c w).driver = s.driver := rfl
@[simp] theorem State.raise_schedule (c : Cause) (w : Word) : (s.raise c w).schedule = s.schedule := rfl
@[simp] theorem State.reg_raise (c : Cause) (w : Word) (q : Reg) : (s.raise c w).reg q = s.reg q := rfl
@[simp] theorem State.byte_raise (c : Cause) (w : Word) (a' : Nat) : (s.raise c w).byte a' = s.byte a' := rfl

/-! ### raiseBy -/

@[simp] theorem State.raiseBy_v (c : Cause) (j : Instr) : (s.raiseBy c j).v = s.v := rfl
@[simp] theorem State.raiseBy_i (c : Cause) (j : Instr) : (s.raiseBy c j).i = s.i := rfl
@[simp] theorem State.raiseBy_pc (c : Cause) (j : Instr) : (s.raiseBy c j).pc = s.pc := rfl
@[simp] theorem State.raiseBy_stack (c : Cause) (j : Instr) : (s.raiseBy c j).stack = s.stack := rfl
@[simp] theorem State.raiseBy_sp (c : Cause) (j : Instr) : (s.raiseBy c j).sp = s.sp := rfl
@[simp] theorem State.raiseBy_dt (c : Cause) (j : Instr) : (s.raiseBy c j).dt = s.dt := rfl
@[simp] theorem State.raiseBy_st (c : Cause) (j : Instr) : (s.raiseBy c j).st = s.st := rfl
@[simp] theorem State.raiseBy_mem (c : Cause) (j : Instr) : (s.raiseBy c j).mem = s.mem := rfl
@[simp] theorem State.raiseBy_fb (c : Cause) (j : Instr) : (s.raiseBy c j).fb = s.fb := rfl
@[simp] theorem State.raiseBy_key (c : Cause) (j : Instr) : (s.raiseBy c j).key = s.key := rfl
@[simp] theorem State.raiseBy_fault (c : Cause) (j : Instr) : (s.raiseBy c j).fault = ⟨c, s.pc, encode j⟩ := rfl
@[simp] theorem State.raiseBy_draws (c : Cause) (j : Instr) : (s.raiseBy c j).draws = s.draws := rfl
@[simp] theorem State.raiseBy_driver (c : Cause) (j : Instr) : (s.raiseBy c j).driver = s.driver := rfl
@[simp] theorem State.raiseBy_schedule (c : Cause) (j : Instr) : (s.raiseBy c j).schedule = s.schedule := rfl
@[simp] theorem State.reg_raiseBy (c : Cause) (j : Instr) (q : Reg) : (s.raiseBy c j).reg q = s.reg q := rfl
@[simp] theorem State.byte_raiseBy (c : Cause) (j : Instr) (a' : Nat) : (s.raiseBy c j).byte a' = s.byte a' := rfl

/-! ### writeFlagged -/

@[simp] theorem State.writeFlagged_v (x : Reg) (f b : Byte) : (s.writeFlagged x f b).v = (s.v.set 15 f).set x.toNat b x.isLt := rfl
@[simp] theorem State.writeFlagged_i (x : Reg) (f b : Byte) : (s.writeFlagged x f b).i = s.i := rfl
@[simp] theorem State.writeFlagged_pc (x : Reg) (f b : Byte) : (s.writeFlagged x f b).pc = s.pc := rfl
@[simp] theorem State.writeFlagged_stack (x : Reg) (f b : Byte) : (s.writeFlagged x f b).stack = s.stack := rfl
@[simp] theorem State.writeFlagged_sp (x : Reg) (f b : Byte) : (s.writeFlagged x f b).sp = s.sp := rfl
@[simp] theorem State.writeFlagged_dt (x : Reg) (f b : Byte) : (s.writeFlagged x f b).dt = s.dt := rfl
@[simp] theorem State.writeFlagged_st (x : Reg) (f b : Byte) : (s.writeFlagged x f b).st = s.st := rfl
@[simp] theorem State.writeFlagged_mem (x : Reg) (f b : Byte) : (s.writeFlagged x f b).mem = s.mem := rfl
@[simp] theorem State.writeFlagged_fb (x : Reg) (f b : Byte) : (s.writeFlagged x f b).fb = s.fb := rfl
@[simp] theorem State.writeFlagged_key (x : Reg) (f b : Byte) : (s.writeFlagged x f b).key = s.key := rfl
@[simp] theorem State.writeFlagged_fault (x : Reg) (f b : Byte) : (s.writeFlagged x f b).fault = s.fault := rfl
@[simp] theorem State.writeFlagged_draws (x : Reg) (f b : Byte) : (s.writeFlagged x f b).draws = s.draws := rfl
@[simp] theorem State.writeFlagged_driver (x : Reg) (f b : Byte) : (s.writeFlagged x f b).driver = s.driver := rfl
@[simp] theorem State.writeFlagged_schedule (x : Reg) (f b : Byte) : (s.writeFlagged x f b).schedule = s.schedule := rfl
@[simp] theorem State.byte_writeFlagged (x : Reg) (f b : Byte) (a' : Nat) : (s.writeFlagged x f b).byte a' = s.byte a' := rfl

/-! ### tick -/

@[simp] theorem State.tick_v : s.tick.v = s.v := rfl
@[simp] theorem State.tick_i : s.tick.i = s.i := rfl
@[simp] theorem State.tick_pc : s.tick.pc = s.pc := rfl
@[simp] theorem State.tick_stack : s.tick.stack = s.stack := rfl
@[simp] theorem State.tick_sp : s.tick.sp = s.sp := rfl
@[simp] theorem State.tick_dt : s.tick.dt = decrement s.dt := rfl
@[simp] theorem State.tick_st : s.tick.st = decrement s.st := rfl
@[simp] theorem State.tick_mem : s.tick.mem = s.mem := rfl
@[simp] theorem State.tick_fb : s.tick.fb = s.fb := rfl
@[simp] theorem State.tick_key : s.tick.key = s.key := rfl
@[simp] theorem State.tick_fault : s.tick.fault = s.fault := rfl
@[simp] theorem State.tick_draws : s.tick.draws = s.draws := rfl
@[simp] theorem State.tick_driver : s.tick.driver = s.driver := rfl
@[simp] theorem State.tick_schedule : s.tick.schedule = s.schedule := rfl
@[simp] theorem State.reg_tick (q : Reg) : s.tick.reg q = s.reg q := rfl
@[simp] theorem State.byte_tick (a' : Nat) : s.tick.byte a' = s.byte a' := rfl

/-! ### resetEvent -/

@[simp] theorem State.resetEvent_v : s.resetEvent.v = Vector.replicate 16 0 := rfl
@[simp] theorem State.resetEvent_i : s.resetEvent.i = 0 := rfl
@[simp] theorem State.resetEvent_pc : s.resetEvent.pc = 0x200 := rfl
@[simp] theorem State.resetEvent_stack : s.resetEvent.stack = Vector.replicate 16 0 := rfl
@[simp] theorem State.resetEvent_sp : s.resetEvent.sp = 0 := rfl
@[simp] theorem State.resetEvent_dt : s.resetEvent.dt = 0 := rfl
@[simp] theorem State.resetEvent_st : s.resetEvent.st = 0 := rfl
@[simp] theorem State.resetEvent_mem : s.resetEvent.mem = [] := rfl
@[simp] theorem State.resetEvent_fb : s.resetEvent.fb = Vector.replicate 32 0 := rfl
@[simp] theorem State.resetEvent_key : s.resetEvent.key = s.key := rfl
@[simp] theorem State.resetEvent_fault : s.resetEvent.fault = FaultLatch.clear := rfl
@[simp] theorem State.resetEvent_draws : s.resetEvent.draws = s.draws := rfl
@[simp] theorem State.resetEvent_driver : s.resetEvent.driver = s.driver := rfl
@[simp] theorem State.resetEvent_schedule : s.resetEvent.schedule = s.schedule := rfl

end Sys2Proof.Machine
end

