-- ==== Sys2Proof/Laws/Registers.lean ====
section
/-! SUPPORT. The laws of the data registers, the call stack and the keypad: what each accessor reads after each
update, and everything a shared operation can answer. -/

namespace Sys2Proof.Machine

/-! ### Data registers -/

theorem State.reg_setReg (s : State) (r q : Reg) (b : Byte) :
    (s.setReg r b).reg q = if q = r then b else s.reg q := by
  simp only [State.reg, State.setReg, Vector.getElem_set]
  by_cases h : q = r
  · simp [h]
  · rw [if_neg h, if_neg fun hn => h (BitVec.eq_of_toNat_eq hn.symm)]

@[simp] theorem State.reg_setReg_self (s : State) (r : Reg) (b : Byte) : (s.setReg r b).reg r = b := by
  simp [State.reg_setReg]

theorem State.reg_setReg_ne (s : State) {r q : Reg} (h : q ≠ r) (b : Byte) : (s.setReg r b).reg q = s.reg q := by
  simp [State.reg_setReg, h]

/-- The write-back of a flag-setting instruction (R133): the destination value stands in `x`, the flag in `VF` when
`x` is another register, and no other register changes. -/
theorem State.reg_writeFlagged (s : State) (x q : Reg) (f b : Byte) :
    (s.writeFlagged x f b).reg q = if q = x then b else if q = VF then f else s.reg q := by
  rw [State.writeFlagged, State.reg_setReg, State.reg_setReg]

@[simp] theorem getElem_writeRegs (v : Vector Byte 16) (k : Nat) (bs : List Byte) (j : Nat) (hj : j < 16) :
    (writeRegs v k bs)[j] = if k ≤ j ∧ j < k + bs.length then bs.getD (j - k) 0 else v[j] := by
  induction bs generalizing v k with
  | nil => simp [writeRegs, show ¬ (k ≤ j ∧ j < k) by omega]
  | cons b bs ih =>
    rw [writeRegs, ih]
    by_cases hin : k + 1 ≤ j ∧ j < k + 1 + bs.length
    · have : j - k = j - (k + 1) + 1 := by omega
      rw [if_pos hin, if_pos (by simp only [List.length_cons]; omega), this, List.getD_cons_succ]
    · rw [if_neg hin]
      by_cases hk : j = k
      · subst hk
        simp
      · rw [if_neg (by simp only [List.length_cons]; omega), Vector.getElem_setIfInBounds,
          if_neg (by omega)]

@[simp] theorem State.length_regsUpTo (s : State) (x : Reg) : (s.regsUpTo x).length = x.toNat + 1 := by
  have := x.isLt
  simp [State.regsUpTo, regCount]
  omega

theorem State.getD_regsUpTo (s : State) (x r : Reg) (h : r ≤ x) : (s.regsUpTo x).getD r.toNat 0 = s.reg r := by
  have hr := r.isLt
  have hx : r.toNat < x.toNat + 1 := Nat.lt_succ_of_le h
  simp [State.regsUpTo, regCount, State.reg, List.getD_eq_getElem?_getD, hx,
    Vector.getElem?_eq_getElem (xs := s.v) hr]

/-! ### The flag byte -/

@[simp] theorem flagByte_true : flagByte true = 1 := rfl
@[simp] theorem flagByte_false : flagByte false = 0 := rfl

theorem flagByte_le_one (b : Bool) : (flagByte b).toNat ≤ 1 := by cases b <;> decide

/-! ### The call stack -/

/-- A push fails exactly on a full stack. -/
theorem State.push_eq_none (s : State) (a : Word) : s.push a = none ↔ s.sp.val = 16 := by
  have := s.sp.isLt
  unfold State.push
  split <;> simp <;> omega

/-- What a push that succeeds does. -/
theorem State.push_eq_some {s t : State} {a : Word} (h : s.push a = some t) :
    ∃ hs : s.sp.val < 16, t = { s with stack := s.stack.set s.sp.val a hs, sp := ⟨s.sp.val + 1, by omega⟩ } := by
  unfold State.push at h
  split at h
  · next hs => exact ⟨hs, (Option.some.inj h).symm⟩
  · cases h

/-- A pop fails exactly on an empty stack. -/
theorem State.pop_eq_none (s : State) : s.pop = none ↔ s.sp.val = 0 := by
  unfold State.pop
  split <;> simp <;> omega

/-- What a pop that succeeds does. -/
theorem State.pop_eq_some {s t : State} {a : Word} (h : s.pop = some (a, t)) :
    ∃ hs : 0 < s.sp.val, a = s.stack[s.sp.val - 1]'(by have := s.sp.isLt; omega) ∧
      t = { s with sp := ⟨s.sp.val - 1, by have := s.sp.isLt; omega⟩ } := by
  unfold State.pop at h
  split at h
  · next hs =>
    have := Option.some.inj h
    rw [Prod.mk.injEq] at this
    exact ⟨hs, this.1.symm, this.2.symm⟩
  · cases h

/-! ### Keys -/

/-- The query answers exactly for symbols up to 15. -/
theorem State.isKeyDown_eq_none (s : State) (b : Byte) : s.isKeyDown b = none ↔ 15 < b.toNat := by
  unfold State.isKeyDown
  split <;> simp <;> omega

theorem State.isKeyDown_of_lt (s : State) {b : Byte} (h : b.toNat < 16) : s.isKeyDown b = some s.key[b.toNat] := by
  simp [State.isKeyDown, h]

/-- No key is found exactly when every key is up. -/
theorem State.lowestKeyDown_eq_none (s : State) : s.lowestKeyDown = none ↔ ∀ k : Fin 16, s.key[k] = false := by
  rw [State.lowestKeyDown, List.findIdx?_eq_none_iff]
  constructor
  · intro h k
    have := h s.key[k] (by simp)
    simpa using this
  · intro h b hb
    obtain ⟨k, hk, rfl⟩ := List.getElem_of_mem hb
    have hk' : k < 16 := by simpa using hk
    simpa using h ⟨k, hk'⟩

/-- The key found is down and no lower one is. -/
theorem State.lowestKeyDown_eq_some {s : State} {k : Nat} (h : s.lowestKeyDown = some k) :
    ∃ hk : k < 16, s.key[k] = true ∧ ∀ j (hj : j < k), s.key[j] = false := by
  rw [State.lowestKeyDown, List.findIdx?_eq_some_iff_getElem] at h
  obtain ⟨hk, h1, h2⟩ := h
  refine ⟨by simpa using hk, by simpa using h1, fun j hj => ?_⟩
  simpa using h2 j hj

end Sys2Proof.Machine
end

