-- ==== Sys2Proof/Laws/Exec.lean ====
section
/-! SUPPORT. Everything the shared operations of the meanings can do: the bounds check, fetching, storing from `I` on,
and the target of a skip. -/

namespace Sys2Proof.Machine

theorem inBounds_eq_true (a n : Nat) : inBounds a n = true ↔ n = 0 ∨ a + n ≤ 4096 := by
  simp [inBounds]

/-- A range of at least one byte is out of bounds exactly when its last address is 4096 or more (R59). -/
theorem inBounds_eq_false (a n : Nat) : inBounds a n = false ↔ n ≠ 0 ∧ 4096 ≤ a + n - 1 := by
  simp only [inBounds, decide_eq_false_iff_not, Config.memSize]
  omega

/-! ### Fetching (R90) -/

theorem State.fetch_eq_none (s : State) : s.fetch = none ↔ 4095 ≤ s.pc.toNat := by
  unfold State.fetch
  cases h : inBounds s.pc.toNat 2
  · rw [inBounds_eq_false] at h
    simp
    omega
  · rw [inBounds_eq_true] at h
    simp
    omega

theorem State.fetch_of_lt (s : State) (h : s.pc.toNat < 4095) :
    s.fetch = some (wordOfBytes (s.byte s.pc.toNat) (s.byte (s.pc.toNat + 1))) := by
  have hb : inBounds s.pc.toNat 2 = true := (inBounds_eq_true _ _).2 (Or.inr (by omega))
  rw [State.fetch, if_pos hb]

theorem State.fetch_eq_some {s : State} {w : Word} (h : s.fetch = some w) :
    s.pc.toNat < 4095 ∧ w = wordOfBytes (s.byte s.pc.toNat) (s.byte (s.pc.toNat + 1)) := by
  have hlt : s.pc.toNat < 4095 := by
    by_contra hge
    rw [(State.fetch_eq_none s).2 (by omega)] at h
    cases h
  rw [State.fetch_of_lt s hlt] at h
  exact ⟨hlt, (Option.some.inj h).symm⟩

/-! ### Storing from `I` on (R58, R59) -/

/-- A store either writes all its bytes and advances, or takes DataFault; there is no third outcome. -/
theorem State.storeAtIndex_cases (s : State) (j : Instr) (bs : List Byte) :
    (bs.length = 0 ∨ s.i.toNat + bs.length ≤ 4096) ∧
        s.storeAtIndex j bs = .next (s.setMem (s.mem.writeBytes s.i.toNat bs)).advance ∨
      (bs.length ≠ 0 ∧ 4096 ≤ s.i.toNat + bs.length - 1) ∧ s.storeAtIndex j bs = .next (s.raiseBy .dataFault j) := by
  unfold State.storeAtIndex
  cases h : inBounds s.i.toNat bs.length
  · exact Or.inr ⟨(inBounds_eq_false _ _).1 h, rfl⟩
  · exact Or.inl ⟨(inBounds_eq_true _ _).1 h, rfl⟩

@[simp] theorem length_bcdDigits (b : Byte) : (bcdDigits b).length = 3 := rfl

/-! ### Skips (R107) -/

@[simp] theorem skipAddress_true (a : Word) : skipAddress a true = a + 4 := rfl
@[simp] theorem skipAddress_false (a : Word) : skipAddress a false = a + 2 := rfl

/-! ### Fetch-range sums never wrap (R91, R26) -/

theorem toNat_add_two {a : Word} (h : a.toNat < 4095) : (a + 2).toNat = a.toNat + 2 := by
  rw [BitVec.toNat_add]
  exact Nat.mod_eq_of_lt (by simp; omega)

theorem toNat_add_four {a : Word} (h : a.toNat < 4095) : (a + 4).toNat = a.toNat + 4 := by
  rw [BitVec.toNat_add]
  exact Nat.mod_eq_of_lt (by simp; omega)

theorem toNat_addressOf (nnn : Addr12) : (addressOf nnn).toNat = nnn.toNat := by
  have := nnn.isLt
  simp only [addressOf, BitVec.toNat_setWidth]
  omega

/-- The sum of `JP V0,nnn` is never reduced (R108). -/
theorem toNat_offsetAddress (nnn : Addr12) (b : Byte) : (offsetAddress nnn b).toNat = nnn.toNat + b.toNat := by
  have := nnn.isLt
  have := b.isLt
  simp only [offsetAddress, BitVec.toNat_add, BitVec.toNat_setWidth]
  omega

end Sys2Proof.Machine
end

