-- ==== Sys2Proof/Laws/ExecCases.lean ====
section
/-! SUPPORT. Everything executing an instruction can do, said once: `exec` always answers a next state, and that state
is one of the cases of `ExecCase`. A claim about all instructions is proved by cases on it. -/

namespace Sys2Proof.Machine

/-- The fault an instruction can raise (60_exceptions.md R190), if any. -/
def raisedBy : Instr → Option Cause
  | .drw _ _ _ | .ldB _ | .stRegs _ | .ldRegs _ => some .dataFault
  | .call _ => some .stackOverflow
  | .ret => some .stackUnderflow
  | .skp _ | .sknp _ => some .invalidKey
  | _ => none

/-- The register an instruction names as its one destination, if any. -/
def writesReg : Instr → Option Reg
  | .ldImm x _ | .addImm x _ | .ldReg x _ | .orReg x _ | .andReg x _ | .xorReg x _ => some x
  | .ldVxDt x | .ldVxK x => some x
  | _ => none

/-- The destination of an instruction that also writes the flag. -/
def writesRegAndFlag : Instr → Option Reg
  | .addReg x _ | .subReg x _ | .shr x _ | .subn x _ | .shl x _ => some x
  | _ => none

/-- Whether an instruction can leave everything but `pc` as it was without a fault. -/
def movesOnlyPc : Instr → Bool
  | .jp _ | .jpV0 _ | .seImm _ _ | .sneImm _ _ | .seReg _ _ | .sneReg _ _ | .skp _ | .sknp _ | .nop _ => true
  | _ => false

/-- The next states of instruction `i` from state `s`. -/
inductive ExecCase (i : Instr) (s : State) : State → Prop
  | fault (c : Cause) (hi : raisedBy i = some c) : ExecCase i s (s.raiseBy c i)
  | movePc (a : Word) (hi : movesOnlyPc i = true) : ExecCase i s (s.setPc a)
  | wait (x : Reg) (hi : i = .ldVxK x) : ExecCase i s s
  | call (nnn : Addr12) (hi : i = .call nnn) (h : s.sp.val < 16) : ExecCase i s
      { s with sp := ⟨s.sp.val + 1, by omega⟩, stack := s.stack.set s.sp.val (s.pc + 2), pc := addressOf nnn }
  | ret (hi : i = .ret) (h : 0 < s.sp.val) : ExecCase i s
      { s with
        sp := ⟨s.sp.val - 1, by have := s.sp.isLt; omega⟩
        pc := s.stack[s.sp.val - 1]'(by have := s.sp.isLt; omega) }
  | setReg (x : Reg) (b : Byte) (hi : writesReg i = some x) : ExecCase i s (s.setReg x b).advance
  | flagged (x : Reg) (f b : Byte) (hi : writesRegAndFlag i = some x) : ExecCase i s (s.writeFlagged x f b).advance
  | random (x : Reg) (kk : Byte) (hi : i = .rnd x kk) :
      ExecCase i s (s.setReg x (kk &&& s.rndByte)).drawn.advance
  | loadRegs (x : Reg) (hi : i = .ldRegs x) (h : s.i.toNat + regCount x ≤ 4096) :
      ExecCase i s (s.setRegs (writeRegs s.v 0 (s.mem.readBytes s.i.toNat (regCount x)))).advance
  | setIndex (a : Word) (hi : (∃ nnn, i = .ldI nnn) ∨ (∃ x, i = .addI x) ∨ ∃ x, i = .ldF x) :
      ExecCase i s (s.setIndex a).advance
  | store (bs : List Byte) (hi : (∃ x, i = .ldB x) ∨ ∃ x, i = .stRegs x) (h : s.i.toNat + bs.length ≤ 4096) :
      ExecCase i s (s.setMem (s.mem.writeBytes s.i.toNat bs)).advance
  | clear (hi : i = .cls) : ExecCase i s (s.setFb blankBitmap).advance
  | sprite (x y : Reg) (n : Nibble) (fb : Bitmap) (f : Byte) (hi : i = .drw x y n) :
      ExecCase i s ((s.setFb fb).setReg VF f).advance
  | setDt (x : Reg) (hi : i = .ldDtVx x) : ExecCase i s (s.setDt (s.reg x)).advance
  | setSt (x : Reg) (hi : i = .ldStVx x) : ExecCase i s (s.setSt (s.reg x)).advance

theorem execCall_case (nnn : Addr12) (s : State) :
    ∃ t, exec (.call nnn) s = .next t ∧ ExecCase (.call nnn) s t := by
  simp only [exec, execCall]
  split
  · next h =>
    obtain ⟨hs, rfl⟩ := State.push_eq_some h
    exact ⟨_, rfl, .call nnn rfl hs⟩
  · exact ⟨_, rfl, .fault _ rfl⟩

theorem execRet_case (s : State) : ∃ t, exec .ret s = .next t ∧ ExecCase .ret s t := by
  simp only [exec, execRet]
  split
  · next h =>
    obtain ⟨hs, rfl, rfl⟩ := State.pop_eq_some h
    exact ⟨_, rfl, .ret rfl hs⟩
  · exact ⟨_, rfl, .fault _ rfl⟩

theorem execDrw_case (x y : Reg) (n : Nibble) (s : State) :
    ∃ t, exec (.drw x y n) s = .next t ∧ ExecCase (.drw x y n) s t := by
  simp only [exec, execDrw]
  split
  · exact ⟨_, rfl, .sprite x y n _ _ rfl⟩
  · exact ⟨_, rfl, .fault _ rfl⟩

theorem execLdRegs_case (x : Reg) (s : State) :
    ∃ t, exec (.ldRegs x) s = .next t ∧ ExecCase (.ldRegs x) s t := by
  simp only [exec, execLdRegs]
  split
  · next h =>
    rw [inBounds_eq_true] at h
    exact ⟨_, rfl, .loadRegs x rfl (h.resolve_left (Nat.succ_ne_zero _))⟩
  · exact ⟨_, rfl, .fault _ rfl⟩

theorem execKeySkip_case (x : Reg) (s : State) :
    (∃ t, exec (.skp x) s = .next t ∧ ExecCase (.skp x) s t) ∧
      ∃ t, exec (.sknp x) s = .next t ∧ ExecCase (.sknp x) s t := by
  simp only [exec, execSkp, execSknp]
  constructor <;> split
  · exact ⟨_, rfl, .movePc _ rfl⟩
  · exact ⟨_, rfl, .fault _ rfl⟩
  · exact ⟨_, rfl, .movePc _ rfl⟩
  · exact ⟨_, rfl, .fault _ rfl⟩

theorem execLdVxK_case (x : Reg) (s : State) : ∃ t, exec (.ldVxK x) s = .next t ∧ ExecCase (.ldVxK x) s t := by
  simp only [exec, execLdVxK]
  split
  · exact ⟨_, rfl, .setReg x _ rfl⟩
  · exact ⟨_, rfl, .wait x rfl⟩

theorem storeAtIndex_case (i : Instr) (bs : List Byte) (s : State) (hf : raisedBy i = some .dataFault)
    (hi : (∃ x, i = .ldB x) ∨ ∃ x, i = .stRegs x) (hlen : bs.length ≠ 0) :
    ∃ t, s.storeAtIndex i bs = .next t ∧ ExecCase i s t := by
  rcases s.storeAtIndex_cases i bs with ⟨h, he⟩ | ⟨_, he⟩
  · exact ⟨_, he, .store bs hi (h.resolve_left hlen)⟩
  · exact ⟨_, he, .fault _ hf⟩

/-- Executing an instruction answers a next state, and it is one of the cases. -/
theorem exec_cases (i : Instr) (s : State) : ∃ t, exec i s = .next t ∧ ExecCase i s t := by
  cases i
  case call nnn => exact execCall_case nnn s
  case ret => exact execRet_case s
  case drw x y n => exact execDrw_case x y n s
  case ldRegs x => exact execLdRegs_case x s
  case skp x => exact (execKeySkip_case x s).1
  case sknp x => exact (execKeySkip_case x s).2
  case ldVxK x => exact execLdVxK_case x s
  case ldB x => exact storeAtIndex_case _ _ s rfl (.inl ⟨x, rfl⟩) (by simp)
  case stRegs x => exact storeAtIndex_case _ _ s rfl (.inr ⟨x, rfl⟩) (by simp)
  case ldI nnn => exact ⟨_, rfl, .setIndex _ (.inl ⟨nnn, rfl⟩)⟩
  case addI x => exact ⟨_, rfl, .setIndex _ (.inr (.inl ⟨x, rfl⟩))⟩
  case ldF x => exact ⟨_, rfl, .setIndex _ (.inr (.inr ⟨x, rfl⟩))⟩
  case rnd x kk => exact ⟨_, rfl, .random x kk rfl⟩
  case cls => exact ⟨_, rfl, .clear rfl⟩
  case ldDtVx x => exact ⟨_, rfl, .setDt x rfl⟩
  case ldStVx x => exact ⟨_, rfl, .setSt x rfl⟩
  case addReg | subReg | subn | shr | shl => exact ⟨_, rfl, .flagged _ _ _ rfl⟩
  case ldImm | addImm | ldReg | orReg | andReg | xorReg | ldVxDt => exact ⟨_, rfl, .setReg _ _ rfl⟩
  all_goals exact ⟨_, rfl, .movePc _ rfl⟩

/-- The cases, for a next state already at hand. -/
theorem exec_inv {i : Instr} {s t : State} (h : exec i s = .next t) : ExecCase i s t := by
  obtain ⟨u, hu, hc⟩ := exec_cases i s
  rw [h] at hu
  cases hu
  exact hc

end Sys2Proof.Machine
end

