-- ==== Sys2Proof/Laws/PerInstr.lean ====
section
/-! SUPPORT. A statement made per instruction: its encoding matches the mask and match of its own row of the opcode
table (30_encoding.md R74). `nop` has no row. -/

namespace Sys2Proof.Laws.EncodingMatchesRow

/-- The word of instruction `i` is selected by the row of the table that stands for `i`. -/
def Statement (i : Instr) : Prop :=
  ∀ r, opcodeTable.find? (fun r => r.number == rowNumber i) = some r → r.selects (encode i) = true

/-- Masking a nibble with ones keeps it. -/
theorem mask_nibble (m : Nibble) : m &&& 15#4 = m := by
  have : ∀ m : Nibble, m &&& 15#4 = m := by decide
  exact this m

/-- A word of format `XYN` whose nibbles agree with a row's masked pattern is selected by that row. -/
theorem of_nibbles {i : Instr} {k : Nat} {mask pattern : Word} {m x y n : Nibble}
    (hrow : opcodeTable.find? (fun r => r.number == rowNumber i) = some ⟨k, mask, pattern⟩)
    (hword : encode i = formatXYN m x y n) (a b c d a' b' c' d' : Nibble)
    (hmask : mask = formatXYN a b c d) (hpattern : pattern = formatXYN a' b' c' d')
    (h : m &&& a = a' ∧ x &&& b = b' ∧ y &&& c = c' ∧ n &&& d = d') : Statement i := by
  intro r hr
  rw [hrow] at hr
  cases hr
  rw [hword, hmask, hpattern, selects_formatXYN]
  exact h

theorem cls : Statement .cls := by
  intro r hr
  cases hr
  decide

theorem ret : Statement .ret := by
  intro r hr
  cases hr
  decide

theorem jp (nnn : Addr12) : Statement (.jp nnn) :=
  of_nibbles rfl (formatNNN_eq_formatXYN _ _) 0xF 0x0 0x0 0x0 0x1 0x0 0x0 0x0 (by decide) (by decide) (by simp [mask_nibble])

theorem call (nnn : Addr12) : Statement (.call nnn) :=
  of_nibbles rfl (formatNNN_eq_formatXYN _ _) 0xF 0x0 0x0 0x0 0x2 0x0 0x0 0x0 (by decide) (by decide) (by simp [mask_nibble])

theorem seImm (x : Reg) (kk : Byte) : Statement (.seImm x kk) :=
  of_nibbles rfl (formatXKK_eq_formatXYN _ _ _) 0xF 0x0 0x0 0x0 0x3 0x0 0x0 0x0 (by decide) (by decide) (by simp [mask_nibble])

theorem sneImm (x : Reg) (kk : Byte) : Statement (.sneImm x kk) :=
  of_nibbles rfl (formatXKK_eq_formatXYN _ _ _) 0xF 0x0 0x0 0x0 0x4 0x0 0x0 0x0 (by decide) (by decide) (by simp [mask_nibble])

theorem seReg (x y : Reg) : Statement (.seReg x y) :=
  of_nibbles rfl (rfl) 0xF 0x0 0x0 0xF 0x5 0x0 0x0 0x0 (by decide) (by decide) (by simp [mask_nibble])

theorem ldImm (x : Reg) (kk : Byte) : Statement (.ldImm x kk) :=
  of_nibbles rfl (formatXKK_eq_formatXYN _ _ _) 0xF 0x0 0x0 0x0 0x6 0x0 0x0 0x0 (by decide) (by decide) (by simp [mask_nibble])

theorem addImm (x : Reg) (kk : Byte) : Statement (.addImm x kk) :=
  of_nibbles rfl (formatXKK_eq_formatXYN _ _ _) 0xF 0x0 0x0 0x0 0x7 0x0 0x0 0x0 (by decide) (by decide) (by simp [mask_nibble])

theorem ldReg (x y : Reg) : Statement (.ldReg x y) :=
  of_nibbles rfl (rfl) 0xF 0x0 0x0 0xF 0x8 0x0 0x0 0x0 (by decide) (by decide) (by simp [mask_nibble])

theorem orReg (x y : Reg) : Statement (.orReg x y) :=
  of_nibbles rfl (rfl) 0xF 0x0 0x0 0xF 0x8 0x0 0x0 0x1 (by decide) (by decide) (by simp [mask_nibble])

theorem andReg (x y : Reg) : Statement (.andReg x y) :=
  of_nibbles rfl (rfl) 0xF 0x0 0x0 0xF 0x8 0x0 0x0 0x2 (by decide) (by decide) (by simp [mask_nibble])

theorem xorReg (x y : Reg) : Statement (.xorReg x y) :=
  of_nibbles rfl (rfl) 0xF 0x0 0x0 0xF 0x8 0x0 0x0 0x3 (by decide) (by decide) (by simp [mask_nibble])

theorem addReg (x y : Reg) : Statement (.addReg x y) :=
  of_nibbles rfl (rfl) 0xF 0x0 0x0 0xF 0x8 0x0 0x0 0x4 (by decide) (by decide) (by simp [mask_nibble])

theorem subReg (x y : Reg) : Statement (.subReg x y) :=
  of_nibbles rfl (rfl) 0xF 0x0 0x0 0xF 0x8 0x0 0x0 0x5 (by decide) (by decide) (by simp [mask_nibble])

theorem shr (x y : Reg) : Statement (.shr x y) :=
  of_nibbles rfl (rfl) 0xF 0x0 0x0 0xF 0x8 0x0 0x0 0x6 (by decide) (by decide) (by simp [mask_nibble])

theorem subn (x y : Reg) : Statement (.subn x y) :=
  of_nibbles rfl (rfl) 0xF 0x0 0x0 0xF 0x8 0x0 0x0 0x7 (by decide) (by decide) (by simp [mask_nibble])

theorem shl (x y : Reg) : Statement (.shl x y) :=
  of_nibbles rfl (rfl) 0xF 0x0 0x0 0xF 0x8 0x0 0x0 0xE (by decide) (by decide) (by simp [mask_nibble])

theorem sneReg (x y : Reg) : Statement (.sneReg x y) :=
  of_nibbles rfl (rfl) 0xF 0x0 0x0 0xF 0x9 0x0 0x0 0x0 (by decide) (by decide) (by simp [mask_nibble])

theorem ldI (nnn : Addr12) : Statement (.ldI nnn) :=
  of_nibbles rfl (formatNNN_eq_formatXYN _ _) 0xF 0x0 0x0 0x0 0xA 0x0 0x0 0x0 (by decide) (by decide) (by simp [mask_nibble])

theorem jpV0 (nnn : Addr12) : Statement (.jpV0 nnn) :=
  of_nibbles rfl (formatNNN_eq_formatXYN _ _) 0xF 0x0 0x0 0x0 0xB 0x0 0x0 0x0 (by decide) (by decide) (by simp [mask_nibble])

theorem rnd (x : Reg) (kk : Byte) : Statement (.rnd x kk) :=
  of_nibbles rfl (formatXKK_eq_formatXYN _ _ _) 0xF 0x0 0x0 0x0 0xC 0x0 0x0 0x0 (by decide) (by decide) (by simp [mask_nibble])

theorem drw (x y : Reg) (n : Nibble) : Statement (.drw x y n) :=
  of_nibbles rfl (rfl) 0xF 0x0 0x0 0x0 0xD 0x0 0x0 0x0 (by decide) (by decide) (by simp [mask_nibble])

theorem skp (x : Reg) : Statement (.skp x) :=
  of_nibbles rfl (formatXKK_eq_formatXYN _ _ _) 0xF 0x0 0xF 0xF 0xE 0x0 0x9 0xE (by decide) (by decide) (by simp [mask_nibble])

theorem sknp (x : Reg) : Statement (.sknp x) :=
  of_nibbles rfl (formatXKK_eq_formatXYN _ _ _) 0xF 0x0 0xF 0xF 0xE 0x0 0xA 0x1 (by decide) (by decide) (by simp [mask_nibble])

theorem ldVxDt (x : Reg) : Statement (.ldVxDt x) :=
  of_nibbles rfl (formatXKK_eq_formatXYN _ _ _) 0xF 0x0 0xF 0xF 0xF 0x0 0x0 0x7 (by decide) (by decide) (by simp [mask_nibble])

theorem ldVxK (x : Reg) : Statement (.ldVxK x) :=
  of_nibbles rfl (formatXKK_eq_formatXYN _ _ _) 0xF 0x0 0xF 0xF 0xF 0x0 0x0 0xA (by decide) (by decide) (by simp [mask_nibble])

theorem ldDtVx (x : Reg) : Statement (.ldDtVx x) :=
  of_nibbles rfl (formatXKK_eq_formatXYN _ _ _) 0xF 0x0 0xF 0xF 0xF 0x0 0x1 0x5 (by decide) (by decide) (by simp [mask_nibble])

theorem ldStVx (x : Reg) : Statement (.ldStVx x) :=
  of_nibbles rfl (formatXKK_eq_formatXYN _ _ _) 0xF 0x0 0xF 0xF 0xF 0x0 0x1 0x8 (by decide) (by decide) (by simp [mask_nibble])

theorem addI (x : Reg) : Statement (.addI x) :=
  of_nibbles rfl (formatXKK_eq_formatXYN _ _ _) 0xF 0x0 0xF 0xF 0xF 0x0 0x1 0xE (by decide) (by decide) (by simp [mask_nibble])

theorem ldF (x : Reg) : Statement (.ldF x) :=
  of_nibbles rfl (formatXKK_eq_formatXYN _ _ _) 0xF 0x0 0xF 0xF 0xF 0x0 0x2 0x9 (by decide) (by decide) (by simp [mask_nibble])

theorem ldB (x : Reg) : Statement (.ldB x) :=
  of_nibbles rfl (formatXKK_eq_formatXYN _ _ _) 0xF 0x0 0xF 0xF 0xF 0x0 0x3 0x3 (by decide) (by decide) (by simp [mask_nibble])

theorem stRegs (x : Reg) : Statement (.stRegs x) :=
  of_nibbles rfl (formatXKK_eq_formatXYN _ _ _) 0xF 0x0 0xF 0xF 0xF 0x0 0x5 0x5 (by decide) (by decide) (by simp [mask_nibble])

theorem ldRegs (x : Reg) : Statement (.ldRegs x) :=
  of_nibbles rfl (formatXKK_eq_formatXYN _ _ _) 0xF 0x0 0xF 0xF 0xF 0x0 0x6 0x5 (by decide) (by decide) (by simp [mask_nibble])

theorem nop (w : Word) : Statement (.nop w) := by
  intro r hr
  cases hr

end Sys2Proof.Laws.EncodingMatchesRow
end

