-- ==== Sys2Proof/Laws/Step.lean ====
section
/-! SUPPORT. Everything one step can do: some event of the interface on the same machine, and of a `step` event: no
effect on a faulted machine, a fetch fault, or the decoded instruction; and that a placed word is what the next step
fetches. -/

namespace Sys2Proof.Machine

/-! ### Which event comes next (R6) -/

theorem present_step (s : State) : present .step s = cycle s := rfl

/-- A listed event comes first. -/
theorem step_of_listed {s : State} {e : Event} {rest : List Event} (h : s.driver = e :: rest) :
    step s = present e { s with driver := rest } := by
  simp [step, nextEvent, takeEvent, h]

/-- With no event listed and only `step` events scheduled, a step is a `step` event. -/
theorem step_of_stepsOnly {s : State} (h : s.driver = []) (hc : s.schedule = .stepsOnly) : step s = cycle s := by
  simp [step, nextEvent, takeEvent, h, hc, present]

/-- With no event listed, a free schedule gives its next event. -/
theorem step_of_free {s : State} {n : Nat} (h : s.driver = []) (hc : s.schedule = .free n) :
    step s = present (Config.event n) { s with schedule := .free (n + 1) } := by
  simp [step, nextEvent, takeEvent, h, hc]

/-- Every step is some event of the interface, on a state that differs at most in what the driver presents later. -/
theorem step_eq_present (s : State) :
    ∃ (e : Event) (d : List Event) (c : Schedule), step s = present e { s with driver := d, schedule := c } := by
  match hd : s.driver, hc : s.schedule with
  | e :: rest, c =>
    refine ⟨e, rest, c, ?_⟩
    rw [step_of_listed hd, ← hc]
  | [], .stepsOnly =>
    refine ⟨.step, [], .stepsOnly, ?_⟩
    rw [step_of_stepsOnly hd hc, present_step, ← hc, ← hd]
  | [], .free n =>
    refine ⟨Config.event n, [], .free (n + 1), ?_⟩
    rw [step_of_free hd hc, ← hd]

/-- Every event but `step` answers a next state by its definition; for `step`, see `cycle_cases` and `exec_cases`. -/
theorem present_of_ne_step {e : Event} (h : e ≠ .step) (s : State) : ∃ t, present e s = .next t := by
  cases e
  case step => exact absurd rfl h
  all_goals exact ⟨_, rfl⟩

/-! ### One `step` event (R94) -/

theorem cycle_of_faulted {s : State} (h : s.fault.cause ≠ .none) : cycle s = .next s := if_neg h

theorem cycle_of_fetch_none {s : State} (h : s.fault.cause = .none) (hf : s.fetch = none) :
    cycle s = .next (s.raise .fetchFault 0) := by
  rw [cycle, if_pos h, hf]

theorem cycle_of_fetch_some {s : State} {w : Word} (h : s.fault.cause = .none) (hf : s.fetch = some w) :
    cycle s = exec (decodeWord w) s := by
  rw [cycle, if_pos h, hf]

/-- The three things one `step` event can do. -/
theorem cycle_cases (s : State) :
    (s.fault.cause ≠ .none ∧ cycle s = .next s) ∨
    (s.fault.cause = .none ∧ 4095 ≤ s.pc.toNat ∧ cycle s = .next (s.raise .fetchFault 0)) ∨
    (s.fault.cause = .none ∧ s.pc.toNat < 4095 ∧
      cycle s = exec (decodeWord (wordOfBytes (s.byte s.pc.toNat) (s.byte (s.pc.toNat + 1)))) s) := by
  by_cases h : s.fault.cause = .none
  · rcases Nat.lt_or_ge s.pc.toNat 4095 with hp | hp
    · exact Or.inr (Or.inr ⟨h, hp, cycle_of_fetch_some h (State.fetch_of_lt s hp)⟩)
    · exact Or.inr (Or.inl ⟨h, hp, cycle_of_fetch_none h ((State.fetch_eq_none s).2 hp)⟩)
  · exact Or.inl ⟨h, cycle_of_faulted h⟩

/-! ### Placing a word where the next step fetches -/

theorem fetchAddress_lt (s : State) : (fetchAddress s).toNat < 4095 := by
  unfold fetchAddress
  cases h : inBounds s.pc.toNat 2
  · simp [Config.progBase]
  · rw [inBounds_eq_true] at h
    simp
    omega

/-- The next step of a state with a word placed executes that word's instruction. -/
theorem step_withFetchWord {s : State} (hwf : s.mem.wf = true) (nbits w : Nat) :
    step (s.withFetchWord nbits w) = exec (decodeWord (tableWord nbits w)) (s.withFetchWord nbits w) := by
  have ha := fetchAddress_lt s
  have hlen : (fetchAddress s).toNat + (bytesOfWord (tableWord nbits w)).length ≤ Config.memSize := by
    simp [bytesOfWord, Config.memSize]
    omega
  have hrun : (s.withFetchWord nbits w).fault.cause = .none := by
    show (if s.fault.cause = .none then s.fault else FaultLatch.clear).cause = .none
    split
    · assumption
    · rfl
  have hb := Memory.read_writeBytes hwf hlen
  have h0 : (s.withFetchWord nbits w).byte (fetchAddress s).toNat = (tableWord nbits w).extractLsb' 8 8 := by
    show Memory.read (s.mem.writeBytes _ _) _ = _
    rw [hb]
    simp [bytesOfWord]
  have h1 : (s.withFetchWord nbits w).byte ((fetchAddress s).toNat + 1) = (tableWord nbits w).extractLsb' 0 8 := by
    show Memory.read (s.mem.writeBytes _ _) _ = _
    rw [hb]
    simp [bytesOfWord]
  have hf : (s.withFetchWord nbits w).fetch = some (tableWord nbits w) := by
    rw [State.fetch_of_lt _ ha]
    exact congrArg some ((congrArg₂ wordOfBytes h0 h1).trans (wordOfBytes_of_word _))
  rw [step_of_stepsOnly rfl rfl, cycle_of_fetch_some hrun hf]

end Sys2Proof.Machine
end

