-- ==== Sys2Proof/Tests/Slice0.lean ====
section
/-! SUPPORT. The model's own tests: the WellFormed smoke test, one decoding per constructor from a word written out in
bits, at most two one-step tests per instruction with results from 95_test_vectors.md, and a witness for every
statement that has hypotheses. -/

namespace Sys2Proof.Tests

open Sys2Proof Sys2Proof.Machine Sys2Proof.Rules

/-! ### Helpers -/

/-- The reset state with some data registers set. -/
def withRegs (rs : List (Reg × Byte)) : State := rs.foldl (fun s r => s.setReg r.1 r.2) State.reset

/-- What one step of the state, with a word placed at its `pc`, leaves; none unless it answers a next state. -/
def run (w : Nat) (s : State) : Option State :=
  match step (s.withFetchWord 16 w) with
  | .next t => some t
  | _ => none

/-- What an event leaves. -/
def event (e : Event) (s : State) : Option State :=
  match present e s with
  | .next t => some t
  | _ => none

/-- The columns that are on in a display row. -/
def columns (s : State) (r : Fin 32) : List Nat :=
  (List.finRange 64).filterMap fun c => if pixel s.fb r c then some c.val else none

/-- The bytes at `a`, `a+1`, up to `a+n-1`. -/
def bytes (s : State) (a n : Nat) : List Byte := s.mem.readBytes a n

/-- The reset state with registers and the index register set. -/
def indexed (rs : List (Reg × Byte)) (a : Word) : State := (withRegs rs).setIndex a

/-- The same with one byte of memory set. -/
def withByte (s : State) (a : Nat) (b : Byte) : State := s.setMem (s.mem.write a b)

/-- The reset state with a call stack of `n` live entries, entry 0 holding 0x206. -/
def nested (n : Fin 17) (pc : Word) : State :=
  { State.reset with sp := n, pc := pc, stack := State.reset.stack.set 0 0x0206 }

/-- The reset state with the pixel in row 0, column 0 on. -/
def cornerLit : State := State.reset.setFb (State.reset.fb.set 0 (0x8000000000000000#64))

/-- A state that a RET with an empty stack has faulted (V-CYC-8). -/
def stopped : State := { State.reset.raise .stackUnderflow 0x00EE with dt := 5, mem := [(0x201, 0xEE)] }

/-! ### WellFormed: the one check, refused and passed -/

theorem test_wellFormed_refuses_nop_of_cls : Instr.wellFormed (.nop 0x00E0) = false := by decide
theorem test_wellFormed_refuses_nop_of_jp : Instr.wellFormed (.nop 0x1234) = false := by decide
theorem test_wellFormed_admits_nop : Instr.wellFormed (.nop 0x5121) = true := by decide
theorem test_wellFormed_admits_drw : Instr.wellFormed (.drw 15 15 15) = true := by decide

/-! ### Decoding, one word per constructor, in bits: major opcode, then the fields of R71 -/

theorem test_decode_cls : decodeTableWord 16 0b0000000011100000 = some (.cls) := by decide
theorem test_decode_ret : decodeTableWord 16 0b0000000011101110 = some (.ret) := by decide
theorem test_decode_jp : decodeTableWord 16 0b0001101010111100 = some (.jp 0xABC) := by decide
theorem test_decode_call : decodeTableWord 16 0b0010001100000001 = some (.call 0x301) := by decide
theorem test_decode_seImm : decodeTableWord 16 0b0011101011111110 = some (.seImm 10 0xFE) := by decide
theorem test_decode_sneImm : decodeTableWord 16 0b0100000100000010 = some (.sneImm 1 2) := by decide
theorem test_decode_seReg : decodeTableWord 16 0b0101000100100000 = some (.seReg 1 2) := by decide
theorem test_decode_ldImm : decodeTableWord 16 0b0110101001000010 = some (.ldImm 10 0x42) := by decide
theorem test_decode_addImm : decodeTableWord 16 0b0111111100000101 = some (.addImm 15 5) := by decide
theorem test_decode_ldReg : decodeTableWord 16 0b1000000100100000 = some (.ldReg 1 2) := by decide
theorem test_decode_orReg : decodeTableWord 16 0b1000000100100001 = some (.orReg 1 2) := by decide
theorem test_decode_andReg : decodeTableWord 16 0b1000000100100010 = some (.andReg 1 2) := by decide
theorem test_decode_xorReg : decodeTableWord 16 0b1000000100100011 = some (.xorReg 1 2) := by decide
theorem test_decode_addReg : decodeTableWord 16 0b1000101010110100 = some (.addReg 10 11) := by decide
theorem test_decode_subReg : decodeTableWord 16 0b1000000100100101 = some (.subReg 1 2) := by decide
theorem test_decode_shr : decodeTableWord 16 0b1000101011110110 = some (.shr 10 15) := by decide
theorem test_decode_subn : decodeTableWord 16 0b1000000100100111 = some (.subn 1 2) := by decide
theorem test_decode_shl : decodeTableWord 16 0b1000001111111110 = some (.shl 3 15) := by decide
theorem test_decode_sneReg : decodeTableWord 16 0b1001000100100000 = some (.sneReg 1 2) := by decide
theorem test_decode_ldI : decodeTableWord 16 0b1010001100000000 = some (.ldI 0x300) := by decide
theorem test_decode_jpV0 : decodeTableWord 16 0b1011001100000000 = some (.jpV0 0x300) := by decide
theorem test_decode_rnd : decodeTableWord 16 0b1100000100001111 = some (.rnd 1 0x0F) := by decide
theorem test_decode_drw : decodeTableWord 16 0b1101000100100101 = some (.drw 1 2 5) := by decide
theorem test_decode_skp : decodeTableWord 16 0b1110010010011110 = some (.skp 4) := by decide
theorem test_decode_sknp : decodeTableWord 16 0b1110010010100001 = some (.sknp 4) := by decide
theorem test_decode_ldVxDt : decodeTableWord 16 0b1111010100000111 = some (.ldVxDt 5) := by decide
theorem test_decode_ldVxK : decodeTableWord 16 0b1111001100001010 = some (.ldVxK 3) := by decide
theorem test_decode_ldDtVx : decodeTableWord 16 0b1111010100010101 = some (.ldDtVx 5) := by decide
theorem test_decode_ldStVx : decodeTableWord 16 0b1111010100011000 = some (.ldStVx 5) := by decide
theorem test_decode_addI : decodeTableWord 16 0b1111001000011110 = some (.addI 2) := by decide
theorem test_decode_ldF : decodeTableWord 16 0b1111000000101001 = some (.ldF 0) := by decide
theorem test_decode_ldB : decodeTableWord 16 0b1111000000110011 = some (.ldB 0) := by decide
theorem test_decode_stRegs : decodeTableWord 16 0b1111001001010101 = some (.stRegs 2) := by decide
theorem test_decode_ldRegs : decodeTableWord 16 0b1111001001100101 = some (.ldRegs 2) := by decide
theorem test_decode_nop : decodeTableWord 16 0b0101000100100001 = some (.nop 0x5121) := by decide
theorem test_decode_strict_low_nibble : decodeTableWord 16 0x8008 = some (.nop 0x8008) := by decide
theorem test_decode_strict_low_byte : decodeTableWord 16 0xF066 = some (.nop 0xF066) := by decide
theorem test_decode_short_row_pads_with_zeros : decodeTableWord 8 0x12AB = some (.nop 0x00AB) := by decide
theorem test_decodeBytes_leaves_the_rest : decodeBytes [0x12, 0x34, 0x56] = .ok (.jp 0x234, [0x56]) := by rfl
theorem test_decodeBytes_refuses_half_a_word : decodeBytes [0x12] = .error .truncated := by rfl

/-! ### One step: the results are those of 95_test_vectors.md, whose row each comment names -/

/-- V-FLW-6. -/
theorem test_ret_pops :
    (run 0x00EE (nested 1 0x20C)).map (fun t => (t.pc, t.sp, t.stack[0]))
      = some (0x206, 0, 0x206) := by decide

/-- V-FLW-7. -/
theorem test_ret_underflow :
    (run 0x00EE State.reset).map (fun t => (t.pc, t.sp, t.fault))
      = some (0x200, 0, ⟨.stackUnderflow, 0x200, 0x00EE⟩) := by decide

/-- V-FLW-1. -/
theorem test_jp :
    (run 0x1ABC State.reset).map (fun t => t.pc)
      = some (0xABC) := by decide

/-- V-CYC-3. -/
theorem test_jp_is_big_endian :
    (run 0x1234 State.reset).map (fun t => t.pc)
      = some (0x234) := by decide

/-- V-FLW-4. -/
theorem test_call_sixteenth :
    (run 0x2ABC (nested 15 0x400)).map (fun t => (t.pc, t.sp, t.stack[15], t.stack[0]))
      = some (0xABC, 16, 0x402, 0x206) := by decide

/-- V-FLW-5. -/
theorem test_call_overflow :
    (run 0x2ABC (nested 16 0x400)).map (fun t => (t.pc, t.sp, t.fault))
      = some (0x400, 16, ⟨.stackOverflow, 0x400, 0x2ABC⟩) := by decide

/-- V-FLW-8. -/
theorem test_seImm_skips :
    (run 0x30FE (withRegs [(0, 0xFE)])).map (fun t => t.pc)
      = some (0x204) := by decide

/-- V-FLW-9. -/
theorem test_seImm_no_skip :
    (run 0x30FE (withRegs [(0, 0xFD)])).map (fun t => t.pc)
      = some (0x202) := by decide

/-- V-FLW-10. -/
theorem test_sneImm_no_skip :
    (run 0x40FE (withRegs [(0, 0xFE)])).map (fun t => t.pc)
      = some (0x202) := by decide

/-- V-FLW-11. -/
theorem test_sneImm_skips :
    (run 0x40FE (withRegs [(0, 0)])).map (fun t => t.pc)
      = some (0x204) := by decide

/-- V-FLW-12. -/
theorem test_seReg_skips :
    (run 0x5120 (withRegs [(1, 7), (2, 7)])).map (fun t => t.pc)
      = some (0x204) := by decide

/-- V-FLW-13. -/
theorem test_seReg_no_skip :
    (run 0x5120 (withRegs [(1, 7), (2, 8)])).map (fun t => t.pc)
      = some (0x202) := by decide

/-- V-FLW-15. -/
theorem test_sneReg_skips :
    (run 0x9120 (withRegs [(1, 7), (2, 8)])).map (fun t => t.pc)
      = some (0x204) := by decide

/-- V-FLW-16. -/
theorem test_sneReg_no_skip :
    (run 0x9120 (withRegs [(1, 7), (2, 7)])).map (fun t => t.pc)
      = some (0x202) := by decide

/-- V-FLW-19. -/
theorem test_jpV0_not_reduced :
    (run 0xBFFF (withRegs [(0, 0xFF)])).map (fun t => (t.pc, t.fault.cause))
      = some (0x10FE, .none) := by decide

/-- V-FLW-20. -/
theorem test_jpV0_offset_is_V0 :
    (run 0xB300 (withRegs [(0, 2), (3, 0x50)])).map (fun t => t.pc)
      = some (0x302) := by decide

/-- V-CYC-2. -/
theorem test_nop_compares_nothing :
    (run 0x5121 (withRegs [(1, 7), (2, 7)])).map (fun t => t.pc)
      = some (0x202) := by decide

/-- V-CYC-1. -/
theorem test_nop_of_zeroed_memory :
    (run 0x0000 State.reset).map (fun t => t)
      = some ({ State.reset with pc := 0x202, schedule := .stepsOnly }) := by decide

/-- V-ALU-1. -/
theorem test_ldImm :
    (run 0x6A42 State.reset).map (fun t => (t.reg 10, t.pc))
      = some (0x42, 0x202) := by decide

/-- V-ALU-2. -/
theorem test_addImm_wraps_without_flag :
    (run 0x7001 (withRegs [(0, 0xFF), (15, 0x55)])).map (fun t => (t.reg 0, t.reg 15))
      = some (0, 0x55) := by decide

/-- V-ALU-3. -/
theorem test_addImm_to_VF :
    (run 0x7F05 (withRegs [(15, 0x10)])).map (fun t => t.reg 15)
      = some (0x15) := by decide

/-- V-ALU-4. -/
theorem test_ldReg :
    (run 0x8120 (withRegs [(2, 0x33)])).map (fun t => t.reg 1)
      = some (0x33) := by decide

/-- V-ALU-5. -/
theorem test_orReg :
    (run 0x8121 (withRegs [(1, 0xF0), (2, 0x3C), (15, 1)])).map (fun t => (t.reg 1, t.reg 15))
      = some (0xFC, 1) := by decide

/-- V-ALU-6. -/
theorem test_andReg :
    (run 0x8122 (withRegs [(1, 0xF0), (2, 0x3C), (15, 1)])).map (fun t => (t.reg 1, t.reg 15))
      = some (0x30, 1) := by decide

/-- V-ALU-7. -/
theorem test_xorReg :
    (run 0x8123 (withRegs [(1, 0xF0), (2, 0x3C), (15, 1)])).map (fun t => (t.reg 1, t.reg 15))
      = some (0xCC, 1) := by decide

/-- V-ALU-8. -/
theorem test_xorReg_with_itself :
    (run 0x8113 (withRegs [(1, 0xA5)])).map (fun t => t.reg 1)
      = some (0) := by decide

/-- V-ALU-12. -/
theorem test_addReg_carries_at_256 :
    (run 0x8014 (withRegs [(0, 0xFF), (1, 1)])).map (fun t => (t.reg 0, t.reg 15))
      = some (0, 1) := by decide

/-- V-ALU-13. -/
theorem test_addReg_destination_stands_in_VF :
    (run 0x8F14 (withRegs [(15, 0xF0), (1, 0x20)])).map (fun t => t.reg 15)
      = some (0x10) := by decide

/-- V-ALU-16. -/
theorem test_subReg_borrows :
    (run 0x8125 (withRegs [(1, 5), (2, 7)])).map (fun t => (t.reg 1, t.reg 15))
      = some (0xFE, 0) := by decide

/-- V-ALU-17. -/
theorem test_subReg_equal_is_no_borrow :
    (run 0x8125 (withRegs [(1, 7), (2, 7)])).map (fun t => (t.reg 1, t.reg 15))
      = some (0, 1) := by decide

/-- V-ALU-25. -/
theorem test_shr_ignores_y :
    (run 0x8376 (withRegs [(3, 5), (7, 0xAA)])).map (fun t => (t.reg 3, t.reg 15, t.reg 7))
      = some (2, 1, 0xAA) := by decide

/-- V-ALU-24. -/
theorem test_shr_is_logical :
    (run 0x8306 (withRegs [(3, 0x80)])).map (fun t => (t.reg 3, t.reg 15))
      = some (0x40, 0) := by decide

/-- V-ALU-27. -/
theorem test_subn :
    (run 0x8127 (withRegs [(1, 5), (2, 7)])).map (fun t => (t.reg 1, t.reg 15, t.reg 2))
      = some (2, 1, 7) := by decide

/-- V-ALU-28. -/
theorem test_subn_borrows :
    (run 0x8127 (withRegs [(1, 7), (2, 5)])).map (fun t => (t.reg 1, t.reg 15))
      = some (0xFE, 0) := by decide

/-- V-ALU-19. -/
theorem test_shl_flag_is_one :
    (run 0x830E (withRegs [(3, 0x81)])).map (fun t => (t.reg 3, t.reg 15))
      = some (2, 1) := by decide

/-- V-ALU-22. -/
theorem test_shl_destination_stands_in_VF :
    (run 0x8F0E (withRegs [(15, 0x81)])).map (fun t => t.reg 15)
      = some (2) := by decide

/-- V-ALU-32: whatever byte is drawn. -/
theorem test_rnd_of_mask_zero : (run 0xC100 (withRegs [(1, 0x77)])).map (fun t => t.reg 1) = some 0 := by
  show some (0#8 &&& Config.rnd 0) = some 0
  simp

/-- log entry 1. -/
theorem test_rnd_advances_the_draws :
    (run 0xC10F State.reset).map (fun t => t.draws)
      = some (1) := by decide

/-- V-MEM-1. -/
theorem test_ldI :
    (run 0xA300 State.reset).map (fun t => t.i)
      = some (0x300) := by decide

/-- V-MEM-3. -/
theorem test_addI_no_flag_no_12_bit_wrap :
    (run 0xF01E (indexed [(0, 1)] 0xFFF)).map (fun t => (t.i, t.reg 15))
      = some (0x1000, 0) := by decide

/-- V-MEM-4. -/
theorem test_addI_wraps_at_16_bits :
    (run 0xF01E (indexed [(0, 1)] 0xFFFF)).map (fun t => t.i)
      = some (0) := by decide

/-- V-MEM-5. -/
theorem test_ldF :
    (run 0xF029 (withRegs [(0, 7)])).map (fun t => t.i)
      = some (0x23) := by decide

/-- V-MEM-7. -/
theorem test_ldF_does_not_mask :
    (run 0xF029 (withRegs [(0, 0xFF)])).map (fun t => t.i)
      = some (0x4FB) := by decide

/-- V-MEM-13. -/
theorem test_ldB_last_legal_place :
    (run 0xF033 (indexed [(0, 0xEA)] 0xFFD)).map (fun t => (bytes t 0xFFD 3, t.i))
      = some ([2, 3, 4], 0xFFD) := by decide

/-- V-MEM-14. -/
theorem test_ldB_fault_writes_nothing :
    (run 0xF033 (indexed [(0, 0xEA)] 0xFFE)).map (fun t => (bytes t 0xFFE 2, t.pc, t.fault))
      = some ([0, 0], 0x200, ⟨.dataFault, 0x200, 0xF033⟩) := by decide

/-- V-MEM-15. -/
theorem test_stRegs :
    (run 0xF255 (indexed [(0, 5), (1, 4), (2, 3), (3, 9)] 0x300)).map (fun t => (bytes t 0x300 4, t.i))
      = some ([5, 4, 3, 0], 0x300) := by decide

/-- V-MEM-18. -/
theorem test_stRegs_fault_writes_nothing :
    (run 0xFF55 (indexed [(0, 1), (1, 2)] 0xFF1)).map (fun t => (bytes t 0xFF1 2, t.fault))
      = some ([0, 0], ⟨.dataFault, 0x200, 0xFF55⟩) := by decide

/-- V-MEM-19. -/
theorem test_ldRegs :
    (run 0xF265 (withByte (withByte (indexed [(3, 0x77)] 0x300) 0x300 5) 0x302 3)).map (fun t => (t.reg 0, t.reg 2, t.reg 3, t.i))
      = some (5, 3, 0x77, 0x300) := by decide

/-- V-MEM-22. -/
theorem test_ldRegs_no_16_bit_wrap :
    (run 0xF165 (indexed [] 0xFFFF)).map (fun t => (t.pc, t.fault))
      = some (0x200, ⟨.dataFault, 0x200, 0xF165⟩) := by decide

/-- V-DSP-1. -/
theorem test_cls_keeps_VF :
    (run 0x00E0 (cornerLit.setReg 15 1)).map (fun t => (t.fb == State.reset.fb, t.reg 15))
      = some (true, 1) := by decide

/-- V-DSP-5. -/
theorem test_drw_wraps_both_ways :
    (run 0xD012 (withByte (withByte (indexed [(0, 62), (1, 31)] 0x20C) 0x20C 0xC3) 0x20D 0x81)).map (fun t => (columns t 31, columns t 0, t.reg 15))
      = some ([4, 5, 62, 63], [5, 62], 0) := by decide

/-- V-DSP-9. -/
theorem test_drw_collides :
    (run 0xD011 (withByte (cornerLit.setIndex 0x300) 0x300 0xC0)).map (fun t => (columns t 0, t.reg 15))
      = some ([1], 1) := by decide

/-- V-KEY-1. -/
theorem test_skp_skips :
    (run 0xE49E ((withRegs [(4, 10)]).setKey 10 true)).map (fun t => t.pc)
      = some (0x204) := by decide

/-- V-KEY-5. -/
theorem test_skp_invalid_key :
    (run 0xE49E (withRegs [(4, 0x10)])).map (fun t => (t.pc, t.fault))
      = some (0x200, ⟨.invalidKey, 0x200, 0xE49E⟩) := by decide

/-- V-KEY-3. -/
theorem test_sknp_no_skip :
    (run 0xE4A1 ((withRegs [(4, 10)]).setKey 10 true)).map (fun t => t.pc)
      = some (0x202) := by decide

/-- V-KEY-4. -/
theorem test_sknp_skips :
    (run 0xE4A1 (withRegs [(4, 10)])).map (fun t => t.pc)
      = some (0x204) := by decide

/-- V-KEY-7. -/
theorem test_ldVxK_waits :
    (run 0xF30A (withRegs [(3, 0x99)])).map (fun t => (t.pc, t.reg 3))
      = some (0x200, 0x99) := by decide

/-- V-KEY-8. -/
theorem test_ldVxK_takes_the_lowest :
    (run 0xF30A ((State.reset.setKey 7 true).setKey 3 true)).map (fun t => (t.pc, t.reg 3))
      = some (0x202, 3) := by decide

/-- V-TMR-1. -/
theorem test_ldVxDt :
    (run 0xF507 (State.reset.setDt 0x2A)).map (fun t => (t.reg 5, t.dt))
      = some (0x2A, 0x2A) := by decide

/-- V-TMR-2. -/
theorem test_ldDtVx :
    (run 0xF515 (withRegs [(5, 0x3C)])).map (fun t => t.dt)
      = some (0x3C) := by decide

/-- V-TMR-3. -/
theorem test_ldStVx :
    (run 0xF518 (withRegs [(5, 5)])).map (fun t => (t.st, t.dt))
      = some (5, 0) := by decide

/-! ### The cycle and the events -/

/-- V-CYC-7. -/
theorem test_fetch_at_the_last_byte_faults :
    (event (.step) (State.reset.setPc 0xFFF)).map (fun t => (t.pc, t.fault))
      = some (0xFFF, ⟨.fetchFault, 0xFFF, 0⟩) := by decide

/-- V-CYC-5. -/
theorem test_fetch_of_the_last_word :
    (event (.step) (State.reset.setPc 0xFFE)).map (fun t => (t.pc, t.fault.cause))
      = some (0x1000, .none) := by decide

/-- V-CYC-8. -/
theorem test_step_of_a_faulted_machine :
    (event (.step) stopped).map (fun t => t)
      = some (stopped) := by decide

/-- V-CYC-9. -/
theorem test_tick_of_a_faulted_machine :
    (event (.tick) stopped).map (fun t => (t.dt, t.fault))
      = some (4, stopped.fault) := by decide

/-- V-TMR-6 and V-TMR-7. -/
theorem test_tick_does_not_wrap :
    (event (.tick) ((State.reset.setSt 2).setDt 0)).map (fun t => (t.dt, t.st))
      = some (0, 1) := by decide

/-- V-KEY-11. -/
theorem test_keySet :
    (event (.keySet 5 true) State.reset).map (fun t => (t.key[5], t.key[4]))
      = some (true, false) := by decide

/-- V-RST-1. -/
theorem test_reset_clears_the_latch_and_keeps_keys :
    (event (.reset) (stopped.setKey 4 true)).map (fun t => (t.fault, t.key[4], t.dt, t.byte 0))
      = some (.clear, true, 0, 0xF0) := by decide

/-- V-RST-2. -/
theorem test_load_places_the_image :
    (event (.load [0x12, 0x00]) (withByte State.reset 0x202 0xAB)).map (fun t => bytes t 0x200 3)
      = some ([0x12, 0, 0]) := by decide

/-- V-RST-4. -/
theorem test_load_of_nothing :
    (event (.load []) stopped).map (fun t => t)
      = some (State.reset) := by decide

/-- R213. -/
theorem test_fbRead_changes_nothing :
    (event (.fbRead) cornerLit).map (fun t => t)
      = some (cornerLit) := by decide

/-- The next event is the oldest that is listed, and the rest of the order stays (log entry 2). -/
theorem test_listed_event_comes_first :
    (match step { State.reset with driver := [.keySet 3 true, .tick] } with
      | .next t => some (t.key[3], t.pc, t.driver, t.schedule)
      | _ => none) = some (true, 0x200, [.tick], .free 0) := by
  decide

/-- With none listed a free schedule gives its next event, whichever it is, and moves on (log entry 2). -/
theorem test_free_event_comes_next :
    step State.reset = present (Config.event 0) { State.reset with schedule := .free 1 } := rfl

/-- The latch's codes are those of R190. -/
theorem test_cause_codes : [Cause.none, .fetchFault, .dataFault, .stackOverflow, .stackUnderflow, .invalidKey].map
    Cause.code = [0, 1, 2, 3, 4, 5] := by
  decide

/-- The core's step is the machine's, and a placed word is what it runs. -/
theorem test_core_runs_the_placed_word :
    (match core.step (core.reset.withFetchWord 16 0x6A42) with
      | .next t => some (State.reg t 10)
      | _ => none) = some 0x42 := by
  decide

/-- `withFetchWord` on a faulted machine at an address that does not exist (log entry 8). -/
theorem test_withFetchWord_makes_it_run :
    (run 0x6A42 { State.reset with pc := 0x1000, fault := ⟨.fetchFault, 0x1000, 0⟩ }).map
      (fun t => (t.reg 10, t.pc)) = some (0x42, 0x202) := by
  decide
/-! ### Witnesses: for every statement with hypotheses, a state and operands that meet all of them -/

theorem witness_DecodeOfEncodeIsIdentity : ∃ i : Instr, i.wellFormed = true := ⟨.nop 0x5121, by decide⟩

theorem witness_DecoderFollowsOpcodeTable : ∃ r : OpcodeRow, r ∈ opcodeTable ∧ r.selects 0x8AB4 = true :=
  ⟨⟨14, 0xF00F, 0x8004⟩, by decide⟩

/-- At the last address that an instruction can be fetched from, with only `step` events ahead. -/
theorem witness_StepRunsDecodedInstruction : ∃ (s : State) (i : Instr), s.Running ∧
    s.pc.toNat + 1 < 4096 ∧ decodeWord (wordOfBytes (s.byte s.pc.toNat) (s.byte (s.pc.toNat + 1))) = i ∧
    OnlyStepsAhead s :=
  ⟨State.withFetchWord (State.reset.setPc 0xFFE) 16 0x6A42, .ldImm 10 0x42, by decide, by decide, by decide,
    by decide, by decide⟩

/-- The same with a `step` event listed and a `tick` after it. -/
theorem witness_StepRunsDecodedInstruction_listed : ∃ s : State, s.Running ∧ s.pc.toNat + 1 < 4096 ∧
    s.driver = .step :: [.tick] := ⟨{ State.reset with driver := [.step, .tick] }, by decide⟩

/-- At the lowest address that cannot be fetched from. -/
theorem witness_FetchBeyondMemoryFaults : ∃ s : State, s.Running ∧ 4095 ≤ s.pc.toNat ∧ OnlyStepsAhead s :=
  ⟨{ State.reset with pc := 0xFFF, schedule := .stepsOnly }, by decide, by decide, by decide, by decide⟩

theorem witness_FetchBeyondMemoryFaults_listed : ∃ s : State, s.Running ∧ 4095 ≤ s.pc.toNat ∧
    s.driver = .step :: [.tick] := ⟨{ State.reset with pc := 0xFFF, driver := [.step, .tick] }, by decide⟩

theorem witness_FaultedMachineIsHalted : ∃ s : State, ¬ s.Running ∧ OnlyStepsAhead s :=
  ⟨{ stopped with schedule := .stepsOnly }, by decide, by decide, by decide⟩

/-- An event listed, only `step` events ahead, and a free schedule. -/
theorem witness_WaitingEventHappensNext :
    (∃ (s : State) (e : Event) (rest : List Event), s.driver = e :: rest) ∧
    (∃ s : State, OnlyStepsAhead s) ∧
    ∃ (s : State) (n : Nat), s.driver = [] ∧ s.schedule = .free n :=
  ⟨⟨{ State.reset with driver := [.keySet 3 true, .step] }, .keySet 3 true, [.step], rfl⟩,
    ⟨{ State.reset with schedule := .stepsOnly }, rfl, rfl⟩, ⟨State.reset, 0, rfl, rfl⟩⟩

theorem witness_JumpToItselfChangesNothing : ∃ (s : State) (nnn : Addr12), s.Running ∧
    s.pc = nnn.setWidth 16 ∧ s.pc.toNat + 1 < 4096 ∧
    wordOfBytes (s.byte s.pc.toNat) (s.byte (s.pc.toNat + 1)) = 0x1#4 ++ nnn ∧ OnlyStepsAhead s :=
  ⟨State.withFetchWord (State.reset.setPc 0xFFE) 16 0x1FFE, 0xFFE, by decide, by decide, by decide, by decide,
    by decide, by decide⟩

/-- A store of all registers to the last sixteen bytes. -/
theorem witness_StepKeepsMemoryCanonical : ∃ s t : State, s.mem.wf = true ∧ step s = .next t ∧ t.mem ≠ s.mem :=
  ⟨(indexed [(0, 5), (15, 9)] 0xFF0).withFetchWord 16 0xFF55, _, by decide, rfl, by decide⟩

/-- A jump to the highest `pc` that exists. -/
theorem witness_StepKeepsAddressesInRange : ∃ s t : State, s.AddressesInRange ∧ step s = .next t ∧
    t.pc = 0x10FE :=
  ⟨(withRegs [(0, 0xFF)]).withFetchWord 16 0xBFFF, _, ⟨by decide, by decide⟩, rfl, by decide⟩

theorem witness_StepKeepsLatchConsistent : ∃ s t : State, s.LatchConsistent ∧ step s = .next t ∧ ¬ t.Running :=
  ⟨(withRegs [(4, 0x10)]).withFetchWord 16 0xE49E, _, ⟨by decide, by decide, by decide⟩, rfl, by decide⟩

/-- A running state where the instruction completes and one where it faults. -/
theorem witness_FinalPcOfEveryInstruction :
    State.Running (nested 1 0x200) ∧ State.Running (nested 0 0x200) := by decide

theorem witness_OnlyFlagWritersChangeFlag :
    ∃ i : Instr, writesFlag i = false ∧ destination i ≠ some VF ∧ i ≠ .ldRegs VF :=
  ⟨.ldRegs 14, by decide⟩

/-- A fetch fault at an event, and a fault of an instruction at a step that comes before a listed `tick`. -/
theorem witness_FaultsArePrecise :
    (∃ (e : Event) (s t : State), s.Running ∧ present e s = .next t ∧ t.fault.cause = .fetchFault) ∧
    (∃ s t : State, s.Running ∧ step s = .next t ∧ t.fault.cause = .dataFault ∧ t.driver = [.tick]) :=
  ⟨⟨.step, State.reset.setPc 0xFFF, _, by decide, rfl, by decide⟩,
    ⟨{ (indexed [] 0xFFE).withFetchWord 16 0xF033 with driver := [.step, .tick] }, _, by decide, rfl, by decide,
      by decide⟩⟩

theorem witness_CallPushesReturnAddress : (nested 15 0x200).sp.val < 16 ∧ (nested 0 0x200).sp.val < 16 := by decide

theorem witness_RetPopsReturnAddress : 0 < (nested 1 0x200).sp.val ∧ 0 < (nested 16 0x200).sp.val := by decide

theorem witness_StackMisuseFaults : (nested 16 0x200).sp.val = 16 ∧ (nested 0 0x200).sp.val = 0 := by decide

/-- The sixteenth nested call, and a state with other registers in between. -/
theorem witness_CallThenReturnComesBack : ∃ s t u : State, s.sp.val < 16 ∧ exec (.call 0x300) s = .next t ∧
    u.sp = t.sp ∧ u.stack = t.stack ∧ u ≠ t :=
  ⟨nested 15 0x200, _,
    { State.reset with i := 7, sp := 16, stack := (State.reset.stack.set 0 0x206).set 15 0x202 },
    by decide, rfl, by decide, by decide, by decide⟩

/-- Both outcomes of each skip: equal and different values. -/
theorem witness_RegisterSkips :
    ((withRegs [(1, 7), (2, 7)]).reg 1).toNat = ((withRegs [(1, 7), (2, 7)]).reg 2).toNat ∧
    ((withRegs [(1, 7), (2, 8)]).reg 1).toNat ≠ ((withRegs [(1, 7), (2, 8)]).reg 2).toNat ∧
    ((withRegs [(1, 7)]).reg 1).toNat = (7 : Byte).toNat ∧
    ((withRegs [(1, 7)]).reg 1).toNat ≠ (8 : Byte).toNat := by decide

/-- A destination that is not the flag register, beside the flag register itself. -/
theorem witness_AddRegistersSetsCarry : (14 : Reg) ≠ VF := by decide

theorem witness_SubtractionsSetNoBorrow : (0 : Reg) ≠ VF := by decide

theorem witness_ShiftsInPlaceSetShiftedOutBit : (14 : Reg) ≠ VF := by decide

/-- The flag's clause, and the draw's at the last place for 15 rows and with no row beyond memory. -/
theorem witness_FlagTable : (14 : Reg) ≠ VF ∧ ¬ OutOfRange (indexed [] 0xFF1) 15 ∧
    ¬ OutOfRange (indexed [] 0xFFFF) 0 := by
  unfold OutOfRange
  decide

/-- The last place for three digits. -/
theorem witness_BcdStoresThreeDigits :
    (indexed [] 0xFFD).mem.wf = true ∧ ¬ OutOfRange (indexed [] 0xFFD) 3 := by
  unfold OutOfRange
  decide

/-- The last place for sixteen registers, and for one. -/
theorem witness_StoreRegistersWritesRange :
    (indexed [] 0xFF0).mem.wf = true ∧ ¬ OutOfRange (indexed [] 0xFF0) ((15 : Reg).toNat + 1) ∧
    ¬ OutOfRange (indexed [] 0xFFF) ((0 : Reg).toNat + 1) := by
  unfold OutOfRange
  decide

theorem witness_LoadRegistersReadsRange :
    ¬ OutOfRange (indexed [] 0xFF0) ((15 : Reg).toNat + 1) ∧
    ¬ OutOfRange (indexed [] 0xFFF) ((0 : Reg).toNat + 1) := by
  unfold OutOfRange
  decide

/-- A store, and a later state with the same memory and index register but other registers. -/
theorem witness_StoreThenLoadRestoresRegisters : ∃ s t u : State, s.mem.wf = true ∧
    ¬ OutOfRange s ((2 : Reg).toNat + 1) ∧ exec (.stRegs 2) s = .next t ∧ u.mem = t.mem ∧ u.i = t.i ∧
    u.reg 0 ≠ s.reg 0 :=
  ⟨indexed [(0, 5), (1, 4), (2, 3)] 0x300, _,
    { State.reset with i := 0x300, mem := [(0x300, 5), (0x301, 4), (0x302, 3)] },
    by decide, by unfold OutOfRange; decide, rfl, by decide, by decide, by decide⟩

/-- One past the last legal place of each access, and the wrap that does not happen. -/
theorem witness_DataFaultIsTakenWhole : OutOfRange (indexed [] 0xFFE) (3 : Nibble).toNat ∧
    OutOfRange (indexed [] 0xFFE) 3 ∧ OutOfRange (indexed [] 0xFF1) ((15 : Reg).toNat + 1) ∧
    OutOfRange (indexed [] 0xFFFF) ((1 : Reg).toNat + 1) := by
  unfold OutOfRange
  decide

theorem witness_RasterizerXorsEveryTarget : (List.replicate 15 (0xC3 : Byte)).length ≤ 15 := by decide

/-- A draw that collides, and one that does not. -/
theorem witness_CollisionIsALitPixelHit : (List.replicate 15 (0xC3 : Byte)).length ≤ 15 ∧
    collides cornerLit.fb 0 0 [0xC0] = true ∧ collides cornerLit.fb 0 0 [0x40] = false := by decide

/-- Fifteen rows at the last place for them, and no rows. -/
theorem witness_DrwDrawsAndReportsCollision :
    (∃ (s : State) (rows : List Byte), ¬ OutOfRange s (15 : Nibble).toNat ∧ rows.length = 15 ∧
      rows = (List.range (15 : Nibble).toNat).map fun r => s.byte (s.i.toNat + r)) ∧
    ∃ (s : State) (rows : List Byte), ¬ OutOfRange s (0 : Nibble).toNat ∧
      rows = (List.range (0 : Nibble).toNat).map fun r => s.byte (s.i.toNat + r) :=
  ⟨⟨indexed [] 0xFF1, _, by unfold OutOfRange; decide, by decide, rfl⟩,
    ⟨indexed [] 0xFFFF, _, by unfold OutOfRange; decide, rfl⟩⟩

/-- `HitsLitPixel` holds of the draw of V-DSP-9 and not of the one of V-DSP-10. -/
theorem witness_HitsLitPixel : HitsLitPixel cornerLit.fb 0 0 [0xC0] ∧ ¬ HitsLitPixel cornerLit.fb 0 0 [0x40] := by
  refine ⟨⟨0, 0, by decide, by decide, by decide, by decide⟩, ?_⟩
  rintro ⟨r, c, hr, hc, hb, hp⟩
  obtain rfl : r = 0 := by simpa using hr
  have : ∀ c < 8, spriteBit [0x40] 0 c = true →
      pixel cornerLit.fb (targetRow 0 0) (targetCol 0 c) = false := by decide
  rw [this c hc hb] at hp
  cases hp

theorem witness_DrawingTwiceRestoresBitmap : ([0xC3, 0x81] : List Byte).length ≤ 15 ∧
    collides blankBitmap 62 31 [0xC3, 0x81] = false ∧ ∃ b ∈ ([0xC3, 0x81] : List Byte), b ≠ 0 := by decide

/-- The highest symbol, down and up. -/
theorem witness_KeySkipsQueryOneKey : ((withRegs [(4, 15)]).reg 4).toNat = (15 : Fin 16).val ∧
    ((withRegs [(4, 15)]).setKey 15 true).key[(15 : Fin 16)] = true ∧
    (withRegs [(4, 15)]).key[(15 : Fin 16)] = false := by decide

theorem witness_InvalidKeyFaults : 15 < ((withRegs [(4, 0x10)]).reg 4).toNat := by decide

/-- No key down, and key 15 the lowest that is. -/
theorem witness_KeyWaitTakesLowestKey : (∀ k : Fin 16, State.reset.key[k] = false) ∧
    (State.reset.setKey 15 true).key[(15 : Fin 16)] = true ∧
    ∀ j : Fin 16, j < 15 → (State.reset.setKey 15 true).key[j] = false := by decide

/-- An instruction that does not write `DT`, and one that does not read it. -/
theorem witness_DelayTimerRule : (∀ x : Reg, Instr.ldStVx 0 ≠ .ldDtVx x) ∧ ∀ x : Reg, Instr.ldDtVx 0 ≠ .ldVxDt x := by
  decide

/-- A timer at 1, at 255 and at 0. -/
theorem witness_TickDecrementsEachTimer :
    (State.reset.setDt 1).dt.toNat ≠ 0 ∧ (State.reset.setSt 255).st.toNat ≠ 0 ∧
    State.reset.dt.toNat = 0 ∧ State.reset.st.toNat = 0 := by decide

/-- The byte just below the program base, the one just after an image of two bytes, and the last of the image. -/
theorem witness_LoadPlacesImage_short : (0x1FF < 0x200 ∨ 0x200 + min ([0x12, 0x00] : List Byte).length 3584 ≤ 0x1FF) ∧
    0x200 + min ([0x12, 0x00] : List Byte).length 3584 ≤ 0x202 ∧ 1 < min ([0x12, 0x00] : List Byte).length 3584 := by
  decide

/-- The last byte that fits, and one that does not. -/
theorem witness_LoadPlacesImage : 3583 < min (List.replicate 3585 (1 : Byte)).length 3584 ∧
    0x200 + min (List.replicate 3585 (1 : Byte)).length 3584 ≤ 4096 := by
  rw [List.length_replicate]
  decide

end Sys2Proof.Tests
end

section
/-! SUPPORT and the statements of 00_scope.md (R5, R6): every event answers a next state, and none changes what the
driver presents later. -/

namespace Sys2Proof.Machine

open Sys2Proof.Rules

/-! ### An event answers a next state and keeps the order of those to come -/

/-- No instruction touches the order of events, whichever case of its execution is taken. -/
theorem ExecCase.keepsOrder {i : Instr} {s t : State} (h : ExecCase i s t) : KeepsOrder s t := by
  cases h <;> exact ⟨rfl, rfl⟩

/-- A `step` event is answered in each of its three cases: halted, fetch fault, instruction (R94). -/
theorem cycle_next_keepsOrder (s : State) : ∃ t, cycle s = .next t ∧ KeepsOrder s t := by
  rcases cycle_cases s with ⟨_, hhalted⟩ | ⟨_, _, hfetch⟩ | ⟨_, _, hexec⟩
  · exact ⟨s, hhalted, rfl, rfl⟩
  · exact ⟨_, hfetch, rfl, rfl⟩
  · obtain ⟨t, ht, hcase⟩ := exec_cases _ s
    exact ⟨t, hexec.trans ht, hcase.keepsOrder⟩

theorem present_next_keepsOrder (e : Event) (s : State) : ∃ t, present e s = .next t ∧ KeepsOrder s t := by
  cases e
  case step => exact cycle_next_keepsOrder s
  case tick | keySet | reset | load | fbRead => exact ⟨_, rfl, rfl, rfl⟩

theorem present_next (e : Event) (s : State) : ∃ t, present e s = .next t :=
  (present_next_keepsOrder e s).imp fun _ h => h.1

/-- A step is some event of the interface, and so is answered as that event is. -/
theorem step_next (s : State) : ∃ t, step s = .next t := by
  obtain ⟨e, d, c, hstep⟩ := step_eq_present s
  rw [hstep]
  exact present_next e _

/-! ### The statements -/

/-- Settles O10: every event is answered (a fault too, by the latch), and every step is some event. -/
theorem everyStepAnswersANextState : Obligations.EveryStepAnswersANextState :=
  ⟨present_next, step_next⟩

/-- Settles O9: in each of the three orders the step is the event named, on the state without that event, and an
event keeps the order it finds. -/
theorem waitingEventHappensNext : Obligations.WaitingEventHappensNext := by
  refine ⟨fun s e rest hlisted => ?_, fun s ⟨hd, hc⟩ => ?_, fun s n hd hc => ?_⟩
  · obtain ⟨t, ht, hdriver, hschedule⟩ := present_next_keepsOrder e { s with driver := rest }
    exact ⟨t, (step_of_listed hlisted).trans ht, ht, hdriver, hschedule⟩
  · obtain ⟨t, ht, hdriver, hschedule⟩ := present_next_keepsOrder .step s
    exact ⟨t, (step_of_stepsOnly hd hc).trans ht, ht, hdriver.trans hd, hschedule.trans hc⟩
  · obtain ⟨t, ht, hdriver, hschedule⟩ :=
      present_next_keepsOrder (Config.event n) { s with schedule := .free (n + 1) }
    exact ⟨t, (step_of_free hd hc).trans ht, ht, hdriver.trans hd, hschedule⟩

end Sys2Proof.Machine
end

section
/-! SUPPORT and statements of 10_state.md. Which instructions write each piece of state (R20 to R36, R44), by cases on
what executing an instruction can do. -/

namespace Sys2Proof.Machine

open Sys2Proof.Rules

/-! ### What one execution leaves, field by field -/

section
variable {i : Instr} {s t : State} (h : ExecCase i s t)
include h

/-- `CALL` alone writes a stack entry, the return address at the old `sp`. -/
theorem ExecCase.stack_cases :
    t.stack = s.stack ∨
      (∃ nnn, i = .call nnn) ∧ ∃ hs : s.sp.val < 16, t.stack = s.stack.set s.sp.val (s.pc + 2) hs := by
  cases h with
  | call nnn hi hs => exact .inr ⟨⟨nnn, hi⟩, hs, rfl⟩
  | _ => exact .inl rfl

theorem ExecCase.sp_eq_or : t.sp = s.sp ∨ i = .ret ∨ ∃ nnn, i = .call nnn := by
  cases h with
  | ret hi => exact .inr (.inl hi)
  | call nnn hi => exact .inr (.inr ⟨nnn, hi⟩)
  | _ => exact .inl rfl

theorem ExecCase.i_eq_or : t.i = s.i ∨ (∃ nnn, i = .ldI nnn) ∨ (∃ x, i = .addI x) ∨ ∃ x, i = .ldF x := by
  cases h with
  | setIndex a hi => exact .inr hi
  | _ => exact .inl rfl

theorem ExecCase.mem_eq_or : t.mem = s.mem ∨ (∃ x, i = .ldB x) ∨ ∃ x, i = .stRegs x := by
  cases h with
  | store bs hi => exact .inr hi
  | _ => exact .inl rfl

theorem ExecCase.fb_eq_or : t.fb = s.fb ∨ i = .cls ∨ ∃ x y n, i = .drw x y n := by
  cases h with
  | clear hi => exact .inr (.inl hi)
  | sprite x y n _ _ hi => exact .inr (.inr ⟨x, y, n, hi⟩)
  | _ => exact .inl rfl

theorem ExecCase.dt_eq_or : t.dt = s.dt ∨ ∃ x, i = .ldDtVx x ∧ t.dt = s.reg x := by
  cases h with
  | setDt x hi => exact .inr ⟨x, hi, rfl⟩
  | _ => exact .inl rfl

theorem ExecCase.st_eq_or : t.st = s.st ∨ ∃ x, i = .ldStVx x ∧ t.st = s.reg x := by
  cases h with
  | setSt x hi => exact .inr ⟨x, hi, rfl⟩
  | _ => exact .inl rfl

/-- The latch stays, or the instruction takes its own fault. -/
theorem ExecCase.fault_cases : t.fault = s.fault ∨ ∃ c, raisedBy i = some c ∧ t = s.raiseBy c i := by
  cases h with
  | fault c hi => exact .inr ⟨c, hi, rfl⟩
  | _ => exact .inl rfl

theorem ExecCase.key_eq : t.key = s.key := by
  cases h <;> rfl

theorem ExecCase.keepsHostSide : KeepsHostSide s t :=
  ⟨h.key_eq, h.keepsOrder⟩

end

/-- A register named as the one destination is a destination in the sense of R36. -/
theorem destination_of_writesReg {i : Instr} {x : Reg} (h : writesReg i = some x) : destination i = some x := by
  cases i <;> cases h <;> rfl

theorem writesFlag_of_writesRegAndFlag {i : Instr} {x : Reg} (h : writesRegAndFlag i = some x) :
    writesFlag i = true := by
  cases i <;> cases h <;> rfl

/-- A load of `V[0]` to `V[x]` with `x` below 15 stops short of `VF`. -/
theorem reg_VF_setRegs_writeRegs (s : State) {x : Reg} (hx : x ≠ VF) (m : Memory) (a : Nat) :
    (s.setRegs (writeRegs s.v 0 (m.readBytes a (regCount x)))).reg VF = s.reg VF := by
  have hlt : ¬ 15 < x.toNat + 1 := fun hle => hx (BitVec.eq_of_toNat_eq (by simp; omega))
  simp [State.reg, regCount, hlt]

/-- `VF` stays unless the instruction writes the flag, names register 15 as its destination, or loads it from memory
(R35, R36). -/
theorem ExecCase.reg_VF_eq {i : Instr} {s t : State} (h : ExecCase i s t) (hflag : writesFlag i = false)
    (hdest : destination i ≠ some VF) (hload : i ≠ .ldRegs VF) : t.reg VF = s.reg VF := by
  cases h with
  | setReg x b hi =>
    have hx : VF ≠ x := fun hx => hdest (hx ▸ destination_of_writesReg hi)
    exact s.reg_setReg_ne hx b
  | random x kk hi =>
    have hx : VF ≠ x := fun hx => hdest (by rw [hi, hx]; rfl)
    exact s.reg_setReg_ne hx _
  | flagged x f b hi => simp [writesFlag_of_writesRegAndFlag hi] at hflag
  | sprite x y n fb f hi => simp [hi, writesFlag] at hflag
  | loadRegs x hi => exact reg_VF_setRegs_writeRegs s (fun hx => hload (hx ▸ hi)) s.mem s.i.toNat
  | _ => rfl

/-! ### The statements on what each instruction may write -/

/-- Settles O17: the stack changes in the case of a `CALL`, the pointer in that and in the case of a `RET`. -/
theorem onlyCallAndRetChangeStack : Obligations.OnlyCallAndRetChangeStack := by
  intro i s
  obtain ⟨t, ht, hcase⟩ := exec_cases i s
  exact ⟨t, ht, fun hne => (hcase.stack_cases.resolve_left hne).1, hcase.sp_eq_or.resolve_left⟩

/-- Settles O18: one case of execution writes `I`, and it is that of the three instructions. -/
theorem onlyIndexInstructionsChangeIndex : Obligations.OnlyIndexInstructionsChangeIndex := by
  intro i s
  obtain ⟨t, ht, hcase⟩ := exec_cases i s
  exact ⟨t, ht, hcase.i_eq_or.resolve_left⟩

/-- Settles O19: memory changes in the case of a store alone, the bitmap in those of `CLS` and `DRW`. -/
theorem onlyStoresChangeMemoryAndOnlyDrawsTheDisplay :
    Obligations.OnlyStoresChangeMemoryAndOnlyDrawsTheDisplay := by
  intro i s
  obtain ⟨t, ht, hcase⟩ := exec_cases i s
  exact ⟨t, ht, hcase.mem_eq_or.resolve_left, hcase.fb_eq_or.resolve_left⟩

/-- Settles O20: each case that writes a register either names it as its destination or is excluded. -/
theorem onlyFlagWritersChangeFlag : Obligations.OnlyFlagWritersChangeFlag := by
  intro i s hflag hdest hload
  obtain ⟨t, ht, hcase⟩ := exec_cases i s
  exact ⟨t, ht, hcase.reg_VF_eq hflag hdest hload⟩

/-- Settles O21: no case writes a key or the order of events, and one case each loads a timer. -/
theorem instructionsLeaveKeysAndTimers : Obligations.InstructionsLeaveKeysAndTimers := by
  intro i s
  obtain ⟨t, ht, hcase⟩ := exec_cases i s
  exact ⟨t, ht, hcase.keepsHostSide, hcase.dt_eq_or, hcase.st_eq_or⟩

end Sys2Proof.Machine
end

section
/-! SUPPORT and statements of 10_state.md. The final pc of every instruction (R25), and, from it, the range of the
addresses the machine holds (R26) and the consistency of the fault latch (R31). -/

namespace Sys2Proof.Machine

open Sys2Proof.Rules

/-! ### The final pc of every instruction (R25) -/

/-- What R25 says of instruction `i` in state `s` with next state `t`. -/
def PcAsTabulated (i : Instr) (s t : State) : Prop := t.pc = if t.Running then finalPc i s else s.pc

theorem pcAsTabulated_of_fault (i : Instr) (s : State) {c : Cause} (hc : c ≠ .none) :
    PcAsTabulated i s (s.raiseBy c i) :=
  (if_neg hc).symm

/-- With no fault taken, the pc is to be the tabulated one. -/
theorem pcAsTabulated_of_finalPc {i : Instr} {s t : State} (hrun : s.Running) (hfault : t.fault = s.fault)
    (hpc : t.pc = finalPc i s) : PcAsTabulated i s t := by
  have ht : t.Running := by rw [State.Running, hfault, hrun]
  rw [PcAsTabulated, if_pos ht, hpc]

theorem offsetAddress_eq_ofNat (nnn : Addr12) (b : Byte) :
    offsetAddress nnn b = BitVec.ofNat 16 (nnn.toNat + b.toNat) := by
  rw [← toNat_offsetAddress, BitVec.ofNat_toNat, BitVec.setWidth_eq]

theorem isKeyDown_eq_getElem? (s : State) (b : Byte) : s.isKeyDown b = s.key[b.toNat]? := by
  unfold State.isKeyDown
  split
  · next h => exact (Vector.getElem?_eq_getElem h).symm
  · next h => exact (Vector.getElem?_eq_none (Nat.le_of_not_lt h)).symm

/-- The form of a skip's row in R25, with its condition `p`. -/
theorem skipAddress_eq_ite (a : Word) {cond : Bool} {p : Prop} [Decidable p] (h : cond = true ↔ p) :
    skipAddress a cond = if p then a + 4 else a + 2 :=
  if_congr h rfl rfl

section
variable {s : State} (hrun : s.Running)
include hrun

/-- Where the instruction does not skip the table has `pc0 + 2`, where it skips `pc0 + 4`. -/
theorem pcAsTabulated_skipIf {i : Instr} {cond : Bool} {p : Prop} [Decidable p] (h : cond = true ↔ p)
    (hrow : finalPc i s = if p then s.pc + 4 else s.pc + 2) : PcAsTabulated i s (s.skipIf cond) :=
  pcAsTabulated_of_finalPc hrun rfl ((skipAddress_eq_ite s.pc h).trans hrow.symm)

theorem execRet_pc : ∃ t, exec .ret s = .next t ∧ PcAsTabulated .ret s t := by
  simp only [exec, execRet]
  split
  · next hpop =>
    obtain ⟨_, rfl, rfl⟩ := State.pop_eq_some hpop
    have htop : s.sp.val - 1 < 16 := by omega
    have hrow : (s.stack[s.sp.val - 1]?).getD 0 = s.stack[s.sp.val - 1] := by
      rw [Vector.getElem?_eq_getElem htop, Option.getD_some]
    exact ⟨_, rfl, pcAsTabulated_of_finalPc hrun rfl hrow.symm⟩
  · exact ⟨_, rfl, pcAsTabulated_of_fault _ s (by decide)⟩

theorem execCall_pc (nnn : Addr12) : ∃ t, exec (.call nnn) s = .next t ∧ PcAsTabulated (.call nnn) s t := by
  simp only [exec, execCall]
  split
  · next hpush =>
    obtain ⟨_, rfl⟩ := State.push_eq_some hpush
    exact ⟨_, rfl, pcAsTabulated_of_finalPc hrun rfl rfl⟩
  · exact ⟨_, rfl, pcAsTabulated_of_fault _ s (by decide)⟩

theorem execSkp_pc (x : Reg) : ∃ t, exec (.skp x) s = .next t ∧ PcAsTabulated (.skp x) s t := by
  simp only [exec, execSkp]
  split
  · next down hkey =>
    rw [isKeyDown_eq_getElem?] at hkey
    exact ⟨_, rfl, pcAsTabulated_skipIf hrun (by simp [hkey]) rfl⟩
  · exact ⟨_, rfl, pcAsTabulated_of_fault _ s (by decide)⟩

theorem execSknp_pc (x : Reg) : ∃ t, exec (.sknp x) s = .next t ∧ PcAsTabulated (.sknp x) s t := by
  simp only [exec, execSknp]
  split
  · next down hkey =>
    rw [isKeyDown_eq_getElem?] at hkey
    exact ⟨_, rfl, pcAsTabulated_skipIf hrun (by simp [hkey]) rfl⟩
  · exact ⟨_, rfl, pcAsTabulated_of_fault _ s (by decide)⟩

theorem execLdVxK_pc (x : Reg) : ∃ t, exec (.ldVxK x) s = .next t ∧ PcAsTabulated (.ldVxK x) s t := by
  simp only [exec, execLdVxK]
  split
  · next k hk =>
    have hdown : ¬ ∀ j : Fin 16, s.key[j] = false := by
      rw [← State.lowestKeyDown_eq_none, hk]
      exact Option.some_ne_none k
    exact ⟨_, rfl, pcAsTabulated_of_finalPc hrun rfl (if_neg hdown).symm⟩
  · next hnone =>
    exact ⟨_, rfl, pcAsTabulated_of_finalPc hrun rfl (if_pos ((State.lowestKeyDown_eq_none s).1 hnone)).symm⟩

/-- A store advances or faults. -/
theorem storeAtIndex_pc {i : Instr} (bs : List Byte) (hi : finalPc i s = s.pc + 2) :
    ∃ t, s.storeAtIndex i bs = .next t ∧ PcAsTabulated i s t := by
  rcases s.storeAtIndex_cases i bs with ⟨_, he⟩ | ⟨_, he⟩
  · exact ⟨_, he, pcAsTabulated_of_finalPc hrun rfl hi.symm⟩
  · exact ⟨_, he, pcAsTabulated_of_fault _ s (by decide)⟩

theorem execDrw_pc (x y : Reg) (n : Nibble) :
    ∃ t, exec (.drw x y n) s = .next t ∧ PcAsTabulated (.drw x y n) s t := by
  simp only [exec, execDrw]
  split
  · exact ⟨_, rfl, pcAsTabulated_of_finalPc hrun rfl rfl⟩
  · exact ⟨_, rfl, pcAsTabulated_of_fault _ s (by decide)⟩

theorem execLdRegs_pc (x : Reg) : ∃ t, exec (.ldRegs x) s = .next t ∧ PcAsTabulated (.ldRegs x) s t := by
  simp only [exec, execLdRegs]
  split
  · exact ⟨_, rfl, pcAsTabulated_of_finalPc hrun rfl rfl⟩
  · exact ⟨_, rfl, pcAsTabulated_of_fault _ s (by decide)⟩

/-- Every instruction leaves the pc that R25 tabulates. -/
theorem exec_pc (i : Instr) : ∃ t, exec i s = .next t ∧ PcAsTabulated i s t := by
  cases i
  case ret => exact execRet_pc hrun
  case call nnn => exact execCall_pc hrun nnn
  case skp x => exact execSkp_pc hrun x
  case sknp x => exact execSknp_pc hrun x
  case ldVxK x => exact execLdVxK_pc hrun x
  case drw x y n => exact execDrw_pc hrun x y n
  case ldRegs x => exact execLdRegs_pc hrun x
  case ldB x => exact storeAtIndex_pc hrun _ rfl
  case stRegs x => exact storeAtIndex_pc hrun _ rfl
  case jpV0 nnn =>
    exact ⟨_, rfl, pcAsTabulated_of_finalPc hrun rfl (offsetAddress_eq_ofNat nnn (s.reg V0))⟩
  case seImm | seReg => exact ⟨_, rfl, pcAsTabulated_skipIf hrun beq_iff_eq rfl⟩
  case sneImm | sneReg => exact ⟨_, rfl, pcAsTabulated_skipIf hrun bne_iff_ne rfl⟩
  all_goals exact ⟨_, rfl, pcAsTabulated_of_finalPc hrun rfl rfl⟩

end

/-- Settles O16: an instruction's own case of the table, or the fault it takes. -/
theorem finalPcOfEveryInstruction : Obligations.FinalPcOfEveryInstruction :=
  fun i _ hrun => exec_pc hrun i

/-! ### An invariant of every event is an invariant of every step -/

/-- A property that does not speak of the events to come, and that every event keeps, is kept by every step. -/
theorem step_keeps {P : State → Prop}
    (horder : ∀ s d c, P s → P { s with driver := d, schedule := c })
    (hevent : ∀ e s t, P s → present e s = .next t → P t)
    {s t : State} (h : P s) (hstep : step s = .next t) : P t := by
  obtain ⟨e, d, c, he⟩ := step_eq_present s
  exact hevent e _ t (horder s d c h) (he.symm.trans hstep)

/-! ### The addresses the machine holds (R26) -/

/-- Pushing the address after a fetched instruction keeps the entries in range. -/
theorem stack_set_le {stack : Vector Word 16} (h : ∀ k : Fin 16, stack[k].toNat ≤ 0x1000) {n : Nat} (hn : n < 16)
    {a : Word} (ha : a.toNat ≤ 0x1000) (k : Fin 16) : (stack.set n a hn)[k].toNat ≤ 0x1000 := by
  rw [Fin.getElem_fin, Vector.getElem_set]
  split
  · exact ha
  · exact h k

/-- What `RET` reads, and 0 where the stack is empty, is in the range of the entries. -/
theorem stack_getD_le {stack : Vector Word 16} (h : ∀ k : Fin 16, stack[k].toNat ≤ 0x1000) (n : Nat) :
    ((stack[n]?).getD 0).toNat ≤ 0x1000 := by
  by_cases hn : n < 16
  · rw [Vector.getElem?_eq_getElem hn]
    exact h ⟨n, hn⟩
  · rw [Vector.getElem?_eq_none (Nat.le_of_not_lt hn)]
    exact Nat.zero_le _

theorem ite_toNat_le {p : Prop} [Decidable p] {a b : Word} {n : Nat} (ha : a.toNat ≤ n) (hb : b.toNat ≤ n) :
    (if p then a else b).toNat ≤ n := by
  split
  · exact ha
  · exact hb

/-- The bound of R26 on every row of the table of R25. The largest target is that of `JP V0,0xFFF`. -/
theorem finalPc_le (i : Instr) {s : State} (hs : s.AddressesInRange) (hfetch : s.pc.toNat < 4095) :
    (finalPc i s).toNat ≤ 0x10FE := by
  have hnext : (s.pc + 2).toNat ≤ 0x10FE := by rw [toNat_add_two hfetch]; omega
  have hskip : (s.pc + 4).toNat ≤ 0x10FE := by rw [toNat_add_four hfetch]; omega
  have hnnn (nnn : Addr12) : (addressOf nnn).toNat ≤ 0x10FE := by rw [toNat_addressOf]; omega
  have hsum (nnn : Addr12) (b : Byte) : (BitVec.ofNat 16 (nnn.toNat + b.toNat)).toNat ≤ 0x10FE := by
    rw [← offsetAddress_eq_ofNat, toNat_offsetAddress]
    omega
  cases i
  case ret => exact (stack_getD_le hs.2 _).trans (by decide)
  case jp nnn => exact hnnn nnn
  case call nnn => exact hnnn nnn
  case jpV0 nnn => exact hsum nnn (s.reg V0)
  case seImm | sneImm | seReg | sneReg | skp | sknp => exact ite_toNat_le hskip hnext
  case ldVxK => exact ite_toNat_le hs.1 hnext
  all_goals exact hnext

/-- An instruction that was fetched keeps the addresses in range. -/
theorem exec_keeps_addressesInRange {i : Instr} {s t : State} (hs : s.AddressesInRange) (hrun : s.Running)
    (hfetch : s.pc.toNat < 4095) (ht : exec i s = .next t) : t.AddressesInRange := by
  constructor
  · obtain ⟨u, hu, hpc⟩ := exec_pc hrun i
    obtain rfl : u = t := by simpa using hu.symm.trans ht
    rw [hpc]
    split
    · exact finalPc_le i hs hfetch
    · exact hs.1
  · rcases (exec_inv ht).stack_cases with h | ⟨_, hsp, h⟩
    · rw [h]; exact hs.2
    · rw [h]
      exact stack_set_le hs.2 hsp (by rw [toNat_add_two hfetch]; omega)

/-- The pc and the stack of `reset`, `load` and power-on are in range. -/
theorem addressesInRange_of_reset {s : State} (hpc : s.pc = 0x200) (hstack : s.stack = Vector.replicate 16 0) :
    s.AddressesInRange := by
  simp [State.AddressesInRange, hpc, hstack]

theorem present_keeps_addressesInRange (e : Event) (s t : State) (hs : s.AddressesInRange)
    (ht : present e s = .next t) : t.AddressesInRange := by
  cases e
  case step =>
    rw [present_step] at ht
    rcases cycle_cases s with ⟨_, h⟩ | ⟨_, _, h⟩ | ⟨hrun, hfetch, h⟩
    · cases h.symm.trans ht; exact hs
    · cases h.symm.trans ht; exact hs
    · exact exec_keeps_addressesInRange hs hrun hfetch (h.symm.trans ht)
  case reset | load => cases ht; exact addressesInRange_of_reset rfl rfl
  case tick | keySet | fbRead => cases ht; exact hs

/-- Settles O13: every event keeps the range, a fetched instruction by the table of its final pc. -/
theorem stepKeepsAddressesInRange : Obligations.StepKeepsAddressesInRange :=
  fun _ _ hs hstep => step_keeps (fun _ _ _ h => h) present_keeps_addressesInRange hs hstep

/-! ### The fault latch (R31, R196 to R198) -/

/-- An instruction's fault is a cause other than that of the fetch (R191 to R195). -/
theorem raisedBy_ne {i : Instr} {c : Cause} (h : raisedBy i = some c) : c ≠ .none ∧ c ≠ .fetchFault := by
  cases i <;> cases h <;> decide

theorem latchConsistent_of_clear {s : State} (h : s.fault = FaultLatch.clear) : s.LatchConsistent := by
  simp [State.LatchConsistent, h, FaultLatch.clear]

/-- A fault entry leaves a consistent latch when a fetch fault records word 0. -/
theorem latchConsistent_raise (s : State) {c : Cause} {w : Word} (hc : c ≠ .none) (hw : c = .fetchFault → w = 0) :
    (s.raise c w).LatchConsistent :=
  ⟨fun h => absurd h hc, fun _ => rfl, hw⟩

theorem present_keeps_latchConsistent (e : Event) (s t : State) (hs : s.LatchConsistent)
    (ht : present e s = .next t) : t.LatchConsistent := by
  cases e
  case step =>
    rw [present_step] at ht
    rcases cycle_cases s with ⟨_, h⟩ | ⟨_, _, h⟩ | ⟨hrun, _, h⟩
    · cases h.symm.trans ht; exact hs
    · cases h.symm.trans ht
      exact latchConsistent_raise s (by decide) fun _ => rfl
    · rcases (exec_inv (h.symm.trans ht)).fault_cases with hkept | ⟨c, hc, rfl⟩
      · exact latchConsistent_of_clear (hkept.trans (hs.1 hrun))
      · obtain ⟨hnone, hfetch⟩ := raisedBy_ne hc
        exact latchConsistent_raise s hnone fun h => absurd h hfetch
  case reset | load => cases ht; exact latchConsistent_of_clear rfl
  case tick | keySet | fbRead => cases ht; exact hs

/-- Settles O14: every event keeps the latch consistent; only a `step` of a running machine writes it, and `reset` and
`load` clear it. -/
theorem stepKeepsLatchConsistent : Obligations.StepKeepsLatchConsistent :=
  fun _ _ hs hstep => step_keeps (fun _ _ _ h => h) present_keeps_latchConsistent hs hstep

/-! ### Power-on (R41, R42) -/

/-- Settles O15: memory lists no byte, and pc, stack and latch are those of `reset`. -/
theorem powerOnMeetsInvariant : Obligations.PowerOnMeetsInvariant :=
  ⟨Memory.wf_nil, addressesInRange_of_reset rfl rfl, latchConsistent_of_clear rfl⟩

/-- Settles O59: each register and flag at its reset value, the font against the glyphs of R56. -/
theorem powerOnState : Obligations.PowerOnState :=
  ⟨fun r => by simp [State.reg, State.reset], rfl, rfl, fun k => by simp [State.reset], rfl, rfl, rfl,
    Memory.read_nil, rfl, rfl, by decide, pixel_blankBitmap, fun k => by simp [State.reset], rfl⟩

end Sys2Proof.Machine
end

section
/-! SUPPORT and the statements of the timers (10_state.md R29, R30; 60_exceptions.md R210, R212): who writes each, and
that no instruction but `LD Vx,DT` has an effect that depends on either. -/

namespace Sys2Proof.Machine

open Sys2Proof.Rules

/-! ### A state with other timers -/

/-- The state with other values in both timers. -/
def State.withTimers (dt st : Byte) (s : State) : State := { s with dt := dt, st := st }

/-- A result with its next state, if that is what it is, changed. -/
def onNext (f : State → State) : Result → Result
  | .next s => .next (f s)
  | .fault r => .fault r
  | .refused r => .refused r

@[simp] theorem onNext_next (f : State → State) (s : State) : onNext f (.next s) = .next (f s) := rfl

/-- Whether an instruction moves a timer: `LD Vx,DT`, `LD DT,Vx` and `LD ST,Vx`. -/
def movesTimer : Instr → Bool
  | .ldVxDt _ | .ldDtVx _ | .ldStVx _ => true
  | _ => false

section
variable (dt st : Byte) (s : State)

@[simp] theorem State.withTimers_i : (s.withTimers dt st).i = s.i := rfl
@[simp] theorem State.withTimers_pc : (s.withTimers dt st).pc = s.pc := rfl
@[simp] theorem State.withTimers_sp : (s.withTimers dt st).sp = s.sp := rfl
@[simp] theorem State.reg_withTimers (q : Reg) : (s.withTimers dt st).reg q = s.reg q := rfl
@[simp] theorem State.isKeyDown_withTimers (b : Byte) : (s.withTimers dt st).isKeyDown b = s.isKeyDown b := rfl
@[simp] theorem State.lowestKeyDown_withTimers : (s.withTimers dt st).lowestKeyDown = s.lowestKeyDown := rfl

theorem State.push_withTimers (a : Word) :
    (s.withTimers dt st).push a = (s.push a).map (State.withTimers dt st) := by
  by_cases h : s.sp.val < 16
  · simp [State.push, h, State.withTimers]
  · simp [State.push, h]

theorem State.pop_withTimers :
    (s.withTimers dt st).pop = s.pop.map fun p => (p.1, p.2.withTimers dt st) := by
  by_cases h : 0 < s.sp.val
  · simp [State.pop, h, State.withTimers]
  · simp [State.pop, h]

theorem State.storeAtIndex_withTimers (i : Instr) (bs : List Byte) :
    (s.withTimers dt st).storeAtIndex i bs = onNext (State.withTimers dt st) (s.storeAtIndex i bs) := by
  cases h : inBounds s.i.toNat bs.length <;> simp only [State.storeAtIndex, State.withTimers_i, h] <;> rfl

/-- Every instruction that moves no timer does the same whatever the timers hold, and leaves them. -/
theorem exec_withTimers {i : Instr} (hi : movesTimer i = false) :
    exec i (s.withTimers dt st) = onNext (State.withTimers dt st) (exec i s) := by
  cases i
  case ldVxDt | ldDtVx | ldStVx => cases hi
  case call nnn =>
    simp only [exec, execCall, State.push_withTimers, State.withTimers_pc]
    cases s.push (s.pc + 2) <;> rfl
  case ret =>
    simp only [exec, execRet, State.pop_withTimers]
    cases s.pop <;> rfl
  case skp x =>
    simp only [exec, execSkp, State.isKeyDown_withTimers, State.reg_withTimers]
    cases s.isKeyDown (s.reg x) <;> rfl
  case sknp x =>
    simp only [exec, execSknp, State.isKeyDown_withTimers, State.reg_withTimers]
    cases s.isKeyDown (s.reg x) <;> rfl
  case ldVxK x =>
    simp only [exec, execLdVxK, State.lowestKeyDown_withTimers]
    cases s.lowestKeyDown <;> rfl
  case drw x y n =>
    cases h : inBounds s.i.toNat n.toNat <;> simp only [exec, execDrw, State.withTimers_i, h] <;> rfl
  case ldRegs x =>
    cases h : inBounds s.i.toNat (regCount x) <;> simp only [exec, execLdRegs, State.withTimers_i, h] <;> rfl
  case ldB x => exact s.storeAtIndex_withTimers dt st _ _
  case stRegs x => exact s.storeAtIndex_withTimers dt st _ _
  all_goals rfl

/-- The same for a next state at hand. -/
theorem exec_withTimers_of_next {i : Instr} (hi : movesTimer i = false) {t : State} (ht : exec i s = .next t) :
    exec i (s.withTimers dt st) = .next (t.withTimers dt st) := by
  rw [exec_withTimers dt st s hi, ht, onNext_next]

end

/-! ### The decrement of `tick` -/

theorem toNat_decrement (b : Byte) : (decrement b).toNat = b.toNat - 1 := by
  unfold decrement
  split
  · next h => simp [h]
  · next h => bv_omega

/-! ### Frames of the timer instructions -/

theorem onlyPc_setPc (s : State) (a : Word) : OnlyPc s (s.setPc a) :=
  ⟨fun _ => rfl, ⟨rfl, ⟨rfl, rfl⟩, ⟨rfl, rfl⟩, rfl, ⟨rfl, rfl, rfl⟩, rfl, rfl⟩, fun _ => rfl⟩

theorem onlyRegsAndPc_setReg_advance (s : State) (x : Reg) (b : Byte) : OnlyRegsAndPc s (s.setReg x b).advance :=
  ⟨⟨rfl, ⟨rfl, rfl⟩, ⟨rfl, rfl⟩, rfl, ⟨rfl, rfl, rfl⟩, rfl, rfl⟩, fun _ => rfl⟩

theorem keepsRegsBut_setReg_advance (s : State) (x : Reg) (b : Byte) : KeepsRegsBut x s (s.setReg x b).advance :=
  fun _ hr => s.reg_setReg_ne hr b

/-! ### Another value in a timer -/

theorem movesTimer_cases {i : Instr} (hi : movesTimer i = true) :
    (∃ x, i = .ldVxDt x) ∨ (∃ x, i = .ldDtVx x) ∨ ∃ x, i = .ldStVx x := by
  cases i <;> cases hi
  case ldVxDt x => exact .inl ⟨x, rfl⟩
  case ldDtVx x => exact .inr (.inl ⟨x, rfl⟩)
  case ldStVx x => exact .inr (.inr ⟨x, rfl⟩)

theorem ExecCase.keepsTimers {i : Instr} {s t : State} (h : ExecCase i s t) (hi : movesTimer i = false) :
    KeepsTimers s t := by
  cases h with
  | setDt x hdt => rw [hdt] at hi; cases hi
  | setSt x hst => rw [hst] at hi; cases hi
  | _ => exact ⟨rfl, rfl⟩

/-- Another value of `DT` has no effect on an instruction other than `LD Vx,DT` but in `DT` itself (R29). -/
theorem exec_with_dt (i : Instr) (s : State) (b : Byte) (hi : ∀ x, i ≠ .ldVxDt x) :
    ∃ t, exec i s = .next t ∧ ∃ u, exec i { s with dt := b } = .next u ∧ { u with dt := t.dt } = t ∧
      (u.dt = b ∨ ∃ x, i = .ldDtVx x ∧ u.dt = t.dt) := by
  cases hmoves : movesTimer i
  case false =>
    obtain ⟨t, ht, hcase⟩ := exec_cases i s
    refine ⟨t, ht, _, exec_withTimers_of_next b s.st s hmoves ht, ?_, .inl rfl⟩
    rw [← (hcase.keepsTimers hmoves).2]
    rfl
  case true =>
    obtain ⟨x, rfl⟩ | ⟨x, rfl⟩ | ⟨x, rfl⟩ := movesTimer_cases hmoves
    · exact absurd rfl (hi x)
    · exact ⟨_, rfl, _, rfl, rfl, .inr ⟨x, rfl, rfl⟩⟩
    · exact ⟨_, rfl, _, rfl, rfl, .inl rfl⟩

/-- Another value of `ST` has no effect on any instruction but in `ST` itself (R30). -/
theorem exec_with_st (i : Instr) (s : State) (b : Byte) :
    ∃ t, exec i s = .next t ∧ ∃ u, exec i { s with st := b } = .next u ∧ { u with st := t.st } = t ∧
      (u.st = b ∨ ∃ x, i = .ldStVx x ∧ u.st = t.st) := by
  cases hmoves : movesTimer i
  case false =>
    obtain ⟨t, ht, hcase⟩ := exec_cases i s
    refine ⟨t, ht, _, exec_withTimers_of_next s.dt b s hmoves ht, ?_, .inl rfl⟩
    rw [← (hcase.keepsTimers hmoves).1]
    rfl
  case true =>
    obtain ⟨x, rfl⟩ | ⟨x, rfl⟩ | ⟨x, rfl⟩ := movesTimer_cases hmoves
    · exact ⟨_, rfl, _, rfl, rfl, .inl rfl⟩
    · exact ⟨_, rfl, _, rfl, rfl, .inl rfl⟩
    · exact ⟨_, rfl, _, rfl, rfl, .inr ⟨x, rfl, rfl⟩⟩

/-- The level the host sees is on exactly while the sound timer runs (R212). -/
theorem soundOn_iff (s : State) : s.soundOn = true ↔ s.st.toNat ≠ 0 := by
  rw [State.soundOn, bne_iff_ne, ne_eq, ← BitVec.toNat_inj]
  rfl

/-! ### The statements -/

/-- Settles O52: the write, the read and the tick by their own meanings, the frame by cases on what an instruction can
do, the independence because every other instruction commutes with a change of the timers. -/
theorem delayTimerRule : Obligations.DelayTimerRule := by
  refine ⟨fun x s => ⟨_, rfl, rfl, rfl, onlyPc_setPc s _⟩, fun x s => ⟨_, rfl, ?_⟩,
    fun s => ⟨_, rfl, toNat_decrement s.dt⟩, fun i s hi => ?_, exec_with_dt⟩
  · exact ⟨s.reg_setReg_self x s.dt, keepsRegsBut_setReg_advance s x s.dt, rfl,
      onlyRegsAndPc_setReg_advance s x s.dt⟩
  · obtain ⟨t, ht, hcase⟩ := exec_cases i s
    exact ⟨t, ht, hcase.dt_eq_or.resolve_right fun ⟨x, hx, _⟩ => hi x hx⟩

/-- Settles O53: as for the delay timer, but no instruction reads this one. -/
theorem soundTimerRule : Obligations.SoundTimerRule :=
  ⟨fun _ s => ⟨_, rfl, rfl, rfl, onlyPc_setPc s _⟩, fun s => ⟨_, rfl, toNat_decrement s.st⟩, exec_with_st,
    soundOn_iff⟩

end Sys2Proof.Machine
end

section
/-! SUPPORT and the statement of the flag values (10_state.md R35, R37): the bytes that the flag functions give, and
that a draw collides exactly when it turns some pixel off. -/

namespace Sys2Proof.Machine

open Sys2Proof.Rules

/-! ### A draw, row by row (R161, R162) -/

/-- A draw leaves every display row that none of its sprite rows lands on. -/
theorem pixel_draw_of_row_ne {rows : List Byte} {y : Nat} {r : Fin 32} (x0 : Nat)
    (h : ∀ k < rows.length, r ≠ rowAt (y + k)) (fb : Bitmap) (c : Fin 64) :
    pixel (draw fb x0 y rows) r c = pixel fb r c := by
  induction rows generalizing fb y with
  | nil => rfl
  | cons b rows ih =>
    have hhead : r ≠ rowAt y := h 0 (Nat.succ_pos _)
    have htail : ∀ k < rows.length, r ≠ rowAt (y + 1 + k) := fun k hk => by
      rw [Nat.add_right_comm]
      exact h (k + 1) (Nat.succ_lt_succ hk)
    rw [draw, ih htail, pixel_drawRow, if_neg hhead]

/-- Of at most 32 sprite rows, those after the first land on other display rows than the first. -/
theorem rowAt_ne_of_lt {y k n : Nat} (hk : k < n) (hn : n + 1 ≤ 32) : rowAt y ≠ rowAt (y + 1 + k) := by
  intro h
  have hmod : y % 32 = (y + 1 + k) % 32 := congrArg Fin.val h
  omega

/-- Two display rows have a common bit exactly when some column is on in both. -/
theorem and_ne_zero_iff (a b : BitVec 64) :
    (a &&& b != 0) = true ↔ ∃ c : Fin 64, a.getMsbD c = true ∧ b.getMsbD c = true := by
  rw [bne_iff_ne]
  constructor
  · intro hne
    by_contra hnone
    refine hne (BitVec.eq_of_getMsbD_eq fun c hc => ?_)
    simpa using fun ha hb => hnone ⟨⟨c, hc⟩, ha, hb⟩
  · rintro ⟨c, ha, hb⟩ hzero
    have hbit := congrArg (·.getMsbD c.val) hzero
    simp [ha, hb] at hbit

/-- A draw collides exactly when some pixel goes from on to off (R162). With at most 32 rows no display row is drawn
on twice, so what a sprite row turns off stays off. -/
theorem collides_iff_pixel_turns_off {rows : List Byte} (hlen : rows.length ≤ 32) (fb : Bitmap) (x0 y : Nat) :
    collides fb x0 y rows = true ↔ ∃ r c, pixel fb r c = true ∧ pixel (draw fb x0 y rows) r c = false := by
  induction rows generalizing fb y with
  | nil => simp [collides, draw]
  | cons b rows ih =>
    have hfirst (c : Fin 64) : pixel (draw fb x0 y (b :: rows)) (rowAt y) c
        = (pixel fb (rowAt y) c ^^ (spriteRow x0 b).getMsbD c) := by
      rw [draw, pixel_draw_of_row_ne x0 fun k hk => rowAt_ne_of_lt hk hlen, pixel_drawRow, if_pos rfl]
    rw [collides, Bool.or_eq_true, and_ne_zero_iff, ih (Nat.le_of_succ_le hlen)]
    constructor
    · rintro (⟨c, hon, hbit⟩ | ⟨r, c, hon, hoff⟩)
      · refine ⟨rowAt y, c, hon, ?_⟩
        rw [hfirst, show pixel fb (rowAt y) c = true from hon, hbit]
        rfl
      · have hr : r ≠ rowAt y := by
          rintro rfl
          rw [pixel_draw_of_row_ne x0 fun k hk => rowAt_ne_of_lt hk hlen, hon] at hoff
          cases hoff
        rw [pixel_drawRow, if_neg hr] at hon
        exact ⟨r, c, hon, hoff⟩
    · rintro ⟨r, c, hon, hoff⟩
      by_cases hr : r = rowAt y
      · subst hr
        rw [hfirst, hon] at hoff
        exact .inl ⟨c, hon, by simpa using hoff⟩
      · refine .inr ⟨r, c, ?_, hoff⟩
        rw [pixel_drawRow, if_neg hr, hon]

/-! ### The flag values -/

theorem flagByte_eq_one (b : Bool) : flagByte b = 1 ↔ b = true := by
  cases b <;> decide

theorem flagByte_eq_zero_or_one (b : Bool) : flagByte b = 0 ∨ flagByte b = 1 := by
  cases b
  · exact .inl rfl
  · exact .inr rfl

theorem flagByte_decide (p : Prop) [Decidable p] : flagByte (decide p) = if p then 1 else 0 := by
  simp [flagByte]

/-- Unless the destination is `VF`, the flag stands (R37). -/
theorem reg_VF_writeFlagged (s : State) {x : Reg} (hx : x ≠ VF) (f b : Byte) : (s.writeFlagged x f b).reg VF = f := by
  rw [State.reg_writeFlagged, if_neg hx.symm, if_pos rfl]

/-- A range that R59 does not refuse is in bounds. -/
theorem inBounds_of_not_outOfRange {s : State} {n : Nat} (h : ¬ OutOfRange s n) : inBounds s.i.toNat n = true := by
  rw [← Bool.not_eq_false, inBounds_eq_false]
  exact h

theorem execDrw_flag (x y : Reg) (n : Nibble) (s : State) (h : ¬ OutOfRange s n.toNat) :
    ∃ t, exec (.drw x y n) s = .next t ∧ (t.reg VF = 0 ∨ t.reg VF = 1) ∧
      (t.reg VF = 1 ↔ ∃ r c, pixel s.fb r c = true ∧ pixel t.fb r c = false) := by
  have hlen : (s.mem.readBytes s.i.toNat n.toNat).length ≤ 32 := by
    rw [Memory.length_readBytes]
    omega
  refine ⟨_, if_pos (inBounds_of_not_outOfRange h), ?_⟩
  rw [State.reg_advance, State.reg_setReg_self]
  exact ⟨flagByte_eq_zero_or_one _, (flagByte_eq_one _).trans (collides_iff_pixel_turns_off hlen _ _ _)⟩

/-- Settles O36: with another destination than `VF` the flag written first stands, and `DRW` writes it last. -/
theorem flagTable : Obligations.FlagTable := by
  refine fun x y n s => ⟨fun hx => ?_, execDrw_flag x y n s⟩
  have hflag (f b : Byte) : (s.writeFlagged x f b).advance.reg VF = f := reg_VF_writeFlagged s hx f b
  refine ⟨⟨_, rfl, ?_⟩, ⟨_, rfl, ?_⟩, ⟨_, rfl, ?_⟩, ⟨_, rfl, hflag _ _⟩, ⟨_, rfl, hflag _ _⟩⟩
  all_goals exact (hflag _ _).trans (flagByte_decide _)

end Sys2Proof.Machine
end

section
/-! SUPPORT and the statements of 20_memory.md: the canonical form of memory (R50), the byte order of a word (R53) and
accesses past the end of memory (R57 to R59). -/

namespace Sys2Proof.Machine

open Sys2Proof.Rules

/-! ### The canonical form of memory (R50, log entry 14) -/

/-- An instruction stores only inside the memory, since the whole range is checked before any byte is written (R59). -/
theorem ExecCase.keeps_mem_wf {i : Instr} {s t : State} (h : ExecCase i s t) (hwf : s.mem.wf = true) :
    t.mem.wf = true := by
  cases h with
  | store bs _ hin => exact Memory.wf_writeBytes hwf hin
  | _ => exact hwf

theorem cycle_keeps_mem_wf {s t : State} (hwf : s.mem.wf = true) (ht : cycle s = .next t) : t.mem.wf = true := by
  rcases cycle_cases s with ⟨_, hhalted⟩ | ⟨_, _, hfetch⟩ | ⟨_, _, hexec⟩
  · cases hhalted.symm.trans ht; exact hwf
  · cases hfetch.symm.trans ht; exact hwf
  · exact (exec_inv (hexec.symm.trans ht)).keeps_mem_wf hwf

/-- What `load` keeps of an image ends at the top of memory at the latest (R233). -/
theorem image_fits (image : List Byte) :
    Config.progBase + (image.take Config.progMax).length ≤ Config.memSize := by
  have hlen := List.length_take_le Config.progMax image
  simp only [Config.progBase, Config.progMax, Config.memSize] at hlen ⊢
  omega

theorem present_keeps_mem_wf (e : Event) (s t : State) (hwf : s.mem.wf = true) (ht : present e s = .next t) :
    t.mem.wf = true := by
  cases e
  case step => exact cycle_keeps_mem_wf hwf ht
  case reset => cases ht; exact Memory.wf_nil
  case load image => cases ht; exact Memory.wf_writeBytes Memory.wf_nil (image_fits image)
  case tick | keySet | fbRead => cases ht; exact hwf

/-- Settles O12: every event keeps the form, a store and `load` because their bytes lie inside the memory. -/
theorem stepKeepsMemoryCanonical : Obligations.StepKeepsMemoryCanonical :=
  fun _ _ hwf hstep => step_keeps (fun _ _ _ h => h) present_keeps_mem_wf hwf hstep

/-! ### Accesses past the end of memory (R59, R192) -/

section
variable {s : State} {n : Nat}

theorem not_inBounds_of_outOfRange (h : OutOfRange s n) : ¬ inBounds s.i.toNat n = true := by
  rw [Bool.not_eq_true, inBounds_eq_false]
  exact h

/-- The check comes before the first byte, so a refused store has no partial effect. -/
theorem State.storeAtIndex_of_outOfRange {bs : List Byte} (hlen : bs.length = n) (h : OutOfRange s n) (i : Instr) :
    s.storeAtIndex i bs = .next (s.raiseBy .dataFault i) := by
  subst hlen
  exact if_neg (not_inBounds_of_outOfRange h)

end

/-- Settles O43: each of the four accesses checks its whole range first, and the fault entry writes only the latch, with
the instruction's own encoding. -/
theorem dataFaultIsTakenWhole : Obligations.DataFaultIsTakenWhole := by
  refine fun x y n s => ⟨fun h => ?_, fun h => ?_, fun h => ⟨?_, ?_⟩⟩
  · exact if_neg (not_inBounds_of_outOfRange h)
  · exact s.storeAtIndex_of_outOfRange (length_bcdDigits _) h (.ldB x)
  · exact s.storeAtIndex_of_outOfRange (s.length_regsUpTo x) h (.stRegs x)
  · exact if_neg (not_inBounds_of_outOfRange h)

/-! ### The encoding examples, bytes in memory order (R53) -/

/-- Settles O5: each of the twelve words is decoded by evaluation. -/
theorem exampleWordsDecode : Obligations.ExampleWordsDecode := by
  unfold Obligations.ExampleWordsDecode
  decide

end Sys2Proof.Machine
end

section
/-! SUPPORT and the statements of 30_encoding.md: the decoder and the encoder undo each other (R71 to R75), the rows of
the opcode table select what the decoder gives (R73, R74), and the unrecognized words are the rest (R77, R78). -/

namespace Sys2Proof

/-! ### Which words give `nop` (R78) -/

theorem decodeMajor0_eq_nop (w : Word) : decodeMajor0 w = .nop w ↔ w ≠ 0x00E0 ∧ w ≠ 0x00EE := by
  unfold decodeMajor0
  split
  · simp [*]
  · split <;> simp [*]

theorem decodeMajor8_eq_nop (w : Word) : decodeMajor8 w = .nop w ↔ nOf w ∉ functions8 := by
  unfold decodeMajor8
  split <;> simp_all [functions8]

theorem decodeMajorE_eq_nop (w : Word) : decodeMajorE w = .nop w ↔ kkOf w ∉ functionsE := by
  unfold decodeMajorE
  split <;> simp_all [functionsE]

theorem decodeMajorF_eq_nop (w : Word) : decodeMajorF w = .nop w ↔ kkOf w ∉ functionsF := by
  unfold decodeMajorF
  split <;> simp_all [functionsF]

/-- R78 lists, major by major, what the decoder gives no instruction. -/
theorem decodeWord_eq_nop (w : Word) : decodeWord w = .nop w ↔ unrecognized w = true := by
  rcases nibble_cases (majorOf w) with h | h | h | h | h | h | h | h | h | h | h | h | h | h | h | h <;>
    simp [decodeWord, unrecognized, h, decodeMajor0_eq_nop, decodeMajor8_eq_nop, decodeMajorE_eq_nop,
      decodeMajorF_eq_nop]

/-! ### Decoding an encoded instruction -/

theorem decodeWord_encode (i : Instr) (hwf : i.wellFormed = true) : decodeWord (encode i) = i := by
  cases i with
  | cls | ret => rfl
  | jp | call | ldI | jpV0 => simp [encode, decodeWord]
  | seImm | sneImm | ldImm | addImm | rnd => simp [encode, decodeWord]
  | seReg | sneReg | drw => simp [encode, decodeWord]
  | ldReg | orReg | andReg | xorReg | addReg | subReg | shr | subn | shl => simp [encode, decodeWord, decodeMajor8]
  | skp | sknp => simp [encode, decodeWord, decodeMajorE]
  | ldVxDt | ldVxK | ldDtVx | ldStVx | addI | ldF | ldB | stRegs | ldRegs =>
    simp [encode, decodeWord, decodeMajorF]
  | nop w => exact (decodeWord_eq_nop w).mpr hwf

/-- Settles O1: the fields of a word in its format are the operands, and the major opcode with the function code names
the instruction; a well-formed `NOP` holds a word of R78. -/
theorem decodeOfEncodeIsIdentity : Obligations.DecodeOfEncodeIsIdentity :=
  decodeWord_encode

/-! ### Encoding a decoded word -/

section
variable {w : Word} {m : Nibble}

theorem formatNNN_eq_self (hm : majorOf w = m) : formatNNN m (nnnOf w) = w :=
  hm ▸ formatNNN_of_fields w

theorem formatXKK_eq_self {k : Byte} (hm : majorOf w = m) (hk : kkOf w = k) : formatXKK m (xOf w) k = w :=
  hm ▸ hk ▸ formatXKK_of_fields w

theorem formatXYN_eq_self {n : Nibble} (hm : majorOf w = m) (hn : nOf w = n) :
    formatXYN m (xOf w) (yOf w) n = w :=
  hm ▸ hn ▸ formatXYN_of_fields w

theorem encode_decodeMajor0 : encode (decodeMajor0 w) = w := by
  unfold decodeMajor0
  split
  · exact Eq.symm ‹_›
  · split
    · exact Eq.symm ‹_›
    · rfl

theorem encode_decodeMajor8 (hm : majorOf w = 0x8) : encode (decodeMajor8 w) = w := by
  unfold decodeMajor8
  split
  any_goals exact formatXYN_eq_self hm ‹_›
  rfl

theorem encode_decodeMajorE (hm : majorOf w = 0xE) : encode (decodeMajorE w) = w := by
  unfold decodeMajorE
  split
  any_goals exact formatXKK_eq_self hm ‹_›
  rfl

theorem encode_decodeMajorF (hm : majorOf w = 0xF) : encode (decodeMajorF w) = w := by
  unfold decodeMajorF
  split
  any_goals exact formatXKK_eq_self hm ‹_›
  rfl

end

theorem encode_decodeWord (w : Word) : encode (decodeWord w) = w := by
  unfold decodeWord
  split
  · exact encode_decodeMajor0
  · exact formatNNN_eq_self ‹_›
  · exact formatNNN_eq_self ‹_›
  · exact formatXKK_eq_self ‹_› rfl
  · exact formatXKK_eq_self ‹_› rfl
  · split
    · exact formatXYN_eq_self ‹_› ‹_›
    · rfl
  · exact formatXKK_eq_self ‹_› rfl
  · exact formatXKK_eq_self ‹_› rfl
  · exact encode_decodeMajor8 ‹_›
  · split
    · exact formatXYN_eq_self ‹_› ‹_›
    · rfl
  · exact formatNNN_eq_self ‹_›
  · exact formatNNN_eq_self ‹_›
  · exact formatXKK_eq_self ‹_› rfl
  · exact formatXYN_eq_self ‹_› rfl
  · exact encode_decodeMajorE ‹_›
  · have hm : majorOf w = 0xF := by
      have := nibble_cases (majorOf w)
      simp_all
    exact encode_decodeMajorF hm

theorem wellFormed_decodeWord (w : Word) : (decodeWord w).wellFormed = true := by
  cases h : decodeWord w with
  | nop u =>
    obtain rfl := decodeWord_nop_inv h
    exact (decodeWord_eq_nop u).mp h
  | _ => rfl

/-- Settles O2: under every major opcode the decoder's fields and function code give the word back. -/
theorem encodeOfDecodeIsIdentity : Obligations.EncodeOfDecodeIsIdentity :=
  fun w => ⟨wellFormed_decodeWord w, encode_decodeWord w⟩

/-! ### A row that selects a word is the row of its instruction (R73, R74) -/

theorem rowNumber_decodeMajor8_congr {w v : Word} (hn : nOf w = nOf v) :
    rowNumber (decodeMajor8 w) = rowNumber (decodeMajor8 v) := by
  unfold decodeMajor8
  rw [hn]
  split <;> rfl

theorem rowNumber_decodeMajorE_congr {w v : Word} (hk : kkOf w = kkOf v) :
    rowNumber (decodeMajorE w) = rowNumber (decodeMajorE v) := by
  unfold decodeMajorE
  rw [hk]
  split <;> rfl

theorem rowNumber_decodeMajorF_congr {w v : Word} (hk : kkOf w = kkOf v) :
    rowNumber (decodeMajorF w) = rowNumber (decodeMajorF v) := by
  unfold decodeMajorF
  rw [hk]
  split <;> rfl

theorem rowNumber_ite_nop_congr {w v : Word} (hn : nOf w = nOf v) {i j : Instr} (hij : rowNumber i = rowNumber j) :
    rowNumber (if nOf w = 0#4 then i else .nop w) = rowNumber (if nOf v = 0#4 then j else .nop v) := by
  rw [hn]
  split
  · exact hij
  · rfl

/-- The row of a word depends on its major opcode and, where R74 gives the major opcode one, on its function code. -/
theorem rowNumber_decodeWord_congr {w v : Word} (hm : majorOf w = majorOf v) (hw : majorOf v = 0x0 → w = v)
    (hn : majorOf v ∈ ([0x5, 0x8, 0x9] : List Nibble) → nOf w = nOf v)
    (hk : majorOf v ∈ ([0xE, 0xF] : List Nibble) → kkOf w = kkOf v) :
    rowNumber (decodeWord w) = rowNumber (decodeWord v) := by
  rcases nibble_cases (majorOf v) with h | h | h | h | h | h | h | h | h | h | h | h | h | h | h | h
  case inl => rw [hw h]
  all_goals
    rw [h] at hm hn hk
    simp only [decodeWord, h, hm]
  any_goals rfl
  · exact rowNumber_ite_nop_congr (hn (by decide)) rfl
  · exact rowNumber_decodeMajor8_congr (hn (by decide))
  · exact rowNumber_ite_nop_congr (hn (by decide)) rfl
  · exact rowNumber_decodeMajorE_congr (hk (by decide))
  · exact rowNumber_decodeMajorF_congr (hk (by decide))

/-- A row's mask keeps the major opcode and the function code, if its pattern has one, whole. -/
theorem mask_keeps_code : ∀ r ∈ opcodeTable, majorOf r.mask = 0xF ∧ (majorOf r.pattern = 0x0 → r.mask = 0xFFFF) ∧
    (majorOf r.pattern ∈ ([0x5, 0x8, 0x9] : List Nibble) → nOf r.mask = 0xF) ∧
    (majorOf r.pattern ∈ ([0xE, 0xF] : List Nibble) → kkOf r.mask = 0xFF) := by
  decide

theorem rowNumber_decodeWord_pattern : ∀ r ∈ opcodeTable, rowNumber (decodeWord r.pattern) = r.number := by
  decide

theorem opcodeTable_find?_number : ∀ r ∈ opcodeTable, opcodeTable.find? (fun q => q.number == r.number) = some r := by
  decide

/-- A field that the mask keeps whole is the pattern's. -/
theorem OpcodeRow.extractLsb'_of_selects {r : OpcodeRow} {w : Word} (h : r.selects w = true) {start len : Nat}
    (hmask : r.mask.extractLsb' start len = BitVec.allOnes len) :
    w.extractLsb' start len = r.pattern.extractLsb' start len := by
  rw [← of_decide_eq_true h, BitVec.extractLsb'_and, hmask, BitVec.and_allOnes]

theorem rowNumber_decodeWord_of_selects {w : Word} {r : OpcodeRow} (hr : r ∈ opcodeTable) (h : r.selects w = true) :
    rowNumber (decodeWord w) = r.number := by
  obtain ⟨hmajor, hword, hcode4, hcode8⟩ := mask_keeps_code r hr
  rw [← rowNumber_decodeWord_pattern r hr]
  refine rowNumber_decodeWord_congr (r.extractLsb'_of_selects h hmajor) (fun h0 => ?_)
    (fun hm => r.extractLsb'_of_selects h (hcode4 hm)) (fun hm => r.extractLsb'_of_selects h (hcode8 hm))
  rw [← of_decide_eq_true h, hword h0]
  exact BitVec.and_allOnes.symm

/-! ### The row of a word's instruction selects the word -/

theorem encodingMatchesRow (i : Instr) : Laws.EncodingMatchesRow.Statement i := by
  open Laws.EncodingMatchesRow in
  cases i
  exacts [cls, ret, jp _, call _, seImm _ _, sneImm _ _, seReg _ _, ldImm _ _, addImm _ _, ldReg _ _, orReg _ _,
    andReg _ _, xorReg _ _, addReg _ _, subReg _ _, shr _ _, subn _ _, shl _ _, sneReg _ _, ldI _, jpV0 _, rnd _ _,
    drw _ _ _, skp _, sknp _, ldVxDt _, ldVxK _, ldDtVx _, ldStVx _, addI _, ldF _, ldB _, stRegs _, ldRegs _, nop _]

theorem selects_of_number_eq {w : Word} {r : OpcodeRow} (hr : r ∈ opcodeTable)
    (h : r.number = rowNumber (decodeWord w)) : r.selects w = true := by
  rw [← encode_decodeWord w]
  exact encodingMatchesRow _ r (h ▸ opcodeTable_find?_number r hr)

/-- Settles O3: a selected word has the fields that fix the row, and an instruction's encoding, here the word itself,
matches the instruction's row. -/
theorem decoderFollowsOpcodeTable : Obligations.DecoderFollowsOpcodeTable :=
  fun _ _ hr => ⟨fun h => (rowNumber_decodeWord_of_selects hr h).symm, selects_of_number_eq hr⟩

/-! ### The unrecognized words are those no row selects (R77, R78) -/

theorem number_ne_zero : ∀ r ∈ opcodeTable, r.number ≠ 0 := by
  decide

theorem exists_row_or_nop (i : Instr) : (∃ r ∈ opcodeTable, r.number = rowNumber i) ∨ ∃ w, i = .nop w := by
  cases i with
  | nop w => exact .inr ⟨w, rfl⟩
  | _ => exact .inl (by simp only [rowNumber]; decide)

theorem decodeWord_eq_nop_iff_no_row (w : Word) :
    decodeWord w = .nop w ↔ ∀ r ∈ opcodeTable, r.selects w = false := by
  constructor
  · intro h r hr
    rw [← Bool.not_eq_true, decoderFollowsOpcodeTable w r hr, h]
    exact number_ne_zero r hr
  · intro h
    rcases exists_row_or_nop (decodeWord w) with ⟨r, hr, hnumber⟩ | ⟨u, hu⟩
    · cases (h r hr).symm.trans (selects_of_number_eq hr hnumber)
    · rwa [decodeWord_nop_inv hu] at hu

/-- Settles O4: R78 lists the words the decoder gives no row, and a row that selects a word is its row. -/
theorem unrecognizedWordsAreNop : Obligations.UnrecognizedWordsAreNop :=
  fun w => ⟨(decodeWord_eq_nop w).symm, (decodeWord_eq_nop w).symm.trans (decodeWord_eq_nop_iff_no_row w)⟩

end Sys2Proof
end

section
/-! SUPPORT and the statements of 40_cycle.md: a `step` event fetches two bytes at `pc` and runs what they decode to, or
takes a fetch fault (R90 to R95). -/

namespace Sys2Proof.Machine

open Sys2Proof.Rules

/-! ### A `step` event of a running machine (R90, R92, R191) -/

theorem cycle_of_running {s : State} (hrun : s.Running) (hpc : s.pc.toNat + 1 < 4096) :
    cycle s = exec (decodeWord (wordOfBytes (s.byte s.pc.toNat) (s.byte (s.pc.toNat + 1)))) s :=
  cycle_of_fetch_some hrun (s.fetch_of_lt (Nat.lt_of_succ_lt_succ hpc))

theorem cycle_beyond_memory {s : State} (hrun : s.Running) (hpc : 4095 ≤ s.pc.toNat) :
    cycle s = .next (faulted .fetchFault 0 s) :=
  cycle_of_fetch_none hrun (s.fetch_eq_none.2 hpc)

/-- What `cycle` answers whatever events are listed, a `step` event answers in each order that presents it next. -/
theorem stepEvent_of_cycle {s : State} (answer : State → Result)
    (h : ∀ events, cycle { s with driver := events } = answer { s with driver := events }) :
    present .step s = answer s ∧ (OnlyStepsAhead s → step s = answer s) ∧
    ∀ rest, s.driver = .step :: rest → step s = answer { s with driver := rest } := by
  have hcycle : cycle s = answer s := h s.driver
  refine ⟨(present_step s).trans hcycle, fun ⟨hdriver, hschedule⟩ => ?_, fun rest hlisted => ?_⟩
  · exact (step_of_stepsOnly hdriver hschedule).trans hcycle
  · exact (step_of_listed hlisted).trans (h rest)

/-! ### The statements -/

/-- Settles O6: the fetch does not look at the listed events, so `cycle` runs the decoded instruction under each of the
orders. -/
theorem stepRunsDecodedInstruction : Obligations.StepRunsDecodedInstruction := by
  intro s i hrun hpc hdecode
  subst hdecode
  exact stepEvent_of_cycle _ fun events => cycle_of_running (s := { s with driver := events }) hrun hpc

/-- Settles O7: no two bytes can be fetched at 4095 or above, and taking the fetch fault writes only the latch. -/
theorem fetchBeyondMemoryFaults : Obligations.FetchBeyondMemoryFaults := fun s hrun hpc =>
  stepEvent_of_cycle (fun t => .next (faulted .fetchFault 0 t)) fun events =>
    cycle_beyond_memory (s := { s with driver := events }) hrun hpc

/-- Settles O29: `NOP` sets `pc` to `pc0 + 2` and writes no other field. -/
theorem nopOnlyAdvances : Obligations.NopOnlyAdvances :=
  fun _ s => ⟨s.advance, rfl, rfl, onlyPc_setPc s (s.pc + 2)⟩

end Sys2Proof.Machine
end

section
/-! SUPPORT and the statements of 41_flow.md: jumps and skips write `pc` alone, a call pushes its return address and a
return takes the top entry back (R100 to R108). -/

namespace Sys2Proof.Machine

open Sys2Proof.Rules

/-! ### Jumps (R101, R108, R235) -/

theorem State.setPc_of_eq {s : State} {a : Word} (h : s.pc = a) : s.setPc a = s := by
  subst h
  rfl

/-- Settles O23: `nnn` fits the `pc`, and `nnn + V[0]` is at most 0x10FE, so neither address is reduced. -/
theorem jumpsSetPc : Obligations.JumpsSetPc := fun nnn s =>
  ⟨⟨s.setPc (addressOf nnn), rfl, toNat_addressOf nnn, onlyPc_setPc s _⟩,
    ⟨s.setPc (offsetAddress nnn (s.reg V0)), rfl, toNat_offsetAddress nnn (s.reg V0), onlyPc_setPc s _⟩⟩

/-- Settles O11: the word at `pc` is the jump's encoding, so a `step` event runs the jump, which sets `pc` to the value
it has. -/
theorem jumpToItselfChangesNothing : Obligations.JumpToItselfChangesNothing := by
  intro s nnn hrun hpc hlt hword
  have hdecode : decodeWord (wordOfBytes (s.byte s.pc.toNat) (s.byte (s.pc.toNat + 1))) = .jp nnn := by
    rw [hword]
    exact decodeWord_encode (.jp nnn) rfl
  have hexec : exec (.jp nnn) s = .next s := congrArg Host.Outcome.next (State.setPc_of_eq hpc)
  obtain ⟨hevent, hstep, _⟩ := stepRunsDecodedInstruction s (.jp nnn) hrun hlt hdecode
  exact ⟨hevent.trans hexec, fun hahead => (hstep hahead).trans hexec⟩

/-! ### Call and return (R100, R102) -/

/-- The state after a call: the return address in the first free entry, and `pc` at the target. -/
def State.called (s : State) (nnn : Addr12) (h : s.sp.val < 16) : State :=
  { s with
    stack := s.stack.set s.sp.val (s.pc + 2)
    sp := ⟨s.sp.val + 1, Nat.succ_lt_succ h⟩
    pc := addressOf nnn }

/-- The state after a return: the top entry in `pc`, and no longer live. -/
def State.returned (s : State) : State :=
  { s with
    sp := ⟨s.sp.val - 1, Nat.lt_of_le_of_lt (Nat.sub_le _ _) s.sp.isLt⟩
    pc := s.stack[s.sp.val - 1]'(by have := s.sp.isLt; omega) }

theorem exec_call_of_lt (nnn : Addr12) {s : State} (h : s.sp.val < 16) :
    exec (.call nnn) s = .next (s.called nnn h) := by
  simp only [exec, execCall, State.push, dif_pos h]
  rfl

theorem exec_ret_of_pos {s : State} (h : 0 < s.sp.val) : exec .ret s = .next s.returned := by
  simp only [exec, execRet, State.pop, dif_pos h]
  rfl

theorem getElem_stack_called (nnn : Addr12) {s : State} (h : s.sp.val < 16) (k : Fin 16) :
    (s.called nnn h).stack[k] = if k.val = s.sp.val then s.pc + 2 else s.stack[k] := by
  simp only [State.called, Fin.getElem_fin, Vector.getElem_set, eq_comm]

/-- Settles O24: below the full stack the push succeeds, into the entry at `sp` alone. -/
theorem callPushesReturnAddress : Obligations.CallPushesReturnAddress := fun nnn s h =>
  ⟨s.called nnn h, exec_call_of_lt nnn h, toNat_addressOf nnn, rfl, getElem_stack_called nnn h,
    fun _ => rfl, rfl, ⟨rfl, rfl⟩, rfl, ⟨rfl, rfl, rfl⟩, rfl, rfl, fun _ => rfl⟩

/-- Settles O25: above the empty stack the pop succeeds, and only `pc` and `sp` are written. -/
theorem retPopsReturnAddress : Obligations.RetPopsReturnAddress := fun s h =>
  ⟨s.returned, exec_ret_of_pos h, Vector.getElem?_eq_getElem _, rfl, rfl,
    fun _ => rfl, rfl, ⟨rfl, rfl⟩, rfl, ⟨rfl, rfl, rfl⟩, rfl, rfl, fun _ => rfl⟩

/-- Settles O27: the entry that the call wrote is the top one for the return, since the stack between them is kept. -/
theorem callThenReturnComesBack : Obligations.CallThenReturnComesBack := by
  intro nnn s h
  obtain ⟨t, hcall, -, hsp, hstack, -⟩ := callPushesReturnAddress nnn s h
  refine ⟨t, hcall, fun u husp hustack => ?_⟩
  have hdepth : u.sp.val = s.sp.val + 1 := by rw [husp, hsp]
  obtain ⟨r, hret, htop, hrsp, -⟩ := retPopsReturnAddress u (by omega)
  rw [hdepth, Nat.add_sub_cancel] at htop hrsp
  have hentry : u.stack[s.sp.val]? = some (s.pc + 2) := by
    rw [hustack, Vector.getElem?_eq_getElem h]
    exact congrArg some ((hstack ⟨s.sp.val, h⟩).trans (if_pos rfl))
  exact ⟨r, hret, Option.some.inj (htop.symm.trans hentry), Fin.ext hrsp⟩

/-! ### Skips (R103 to R107) -/

/-- A skip whose condition `p` makes true and `q` makes false. -/
theorem skipIf_of_cond {s : State} {cond : Bool} {p q : Prop} (hp : p → cond = true) (hq : q → cond = false) :
    OnlyPc s (s.skipIf cond) ∧ (p → (s.skipIf cond).pc = s.pc + 4) ∧ (q → (s.skipIf cond).pc = s.pc + 2) := by
  refine ⟨onlyPc_setPc s _, fun h => ?_, fun h => ?_⟩
  · rw [hp h, State.skipIf_pc, skipAddress_true]
  · rw [hq h, State.skipIf_pc, skipAddress_false]

/-- The skip that `SE` makes on two bytes (R103, R105). -/
theorem skipIf_beq (s : State) (a b : Byte) : OnlyPc s (s.skipIf (a == b)) ∧
    (a.toNat = b.toNat → (s.skipIf (a == b)).pc = s.pc + 4) ∧
    (a.toNat ≠ b.toNat → (s.skipIf (a == b)).pc = s.pc + 2) :=
  skipIf_of_cond (fun h => beq_iff_eq.2 (BitVec.eq_of_toNat_eq h))
    (fun h => beq_eq_false_iff_ne.2 (BitVec.toNat_ne_iff_ne.1 h))

/-- The skip that `SNE` makes on two bytes (R104, R106). -/
theorem skipIf_bne (s : State) (a b : Byte) : OnlyPc s (s.skipIf (a != b)) ∧
    (a.toNat ≠ b.toNat → (s.skipIf (a != b)).pc = s.pc + 4) ∧
    (a.toNat = b.toNat → (s.skipIf (a != b)).pc = s.pc + 2) :=
  skipIf_of_cond (fun h => bne_iff_ne.2 (BitVec.toNat_ne_iff_ne.1 h))
    (fun h => bne_eq_false_iff_eq.2 (BitVec.eq_of_toNat_eq h))

/-- Settles O28: each skip compares two bytes, for equality or for difference. -/
theorem registerSkips : Obligations.RegisterSkips := fun x y kk s =>
  ⟨⟨_, rfl, skipIf_beq s (s.reg x) kk⟩, ⟨_, rfl, skipIf_bne s (s.reg x) kk⟩,
    ⟨_, rfl, skipIf_beq s (s.reg x) (s.reg y)⟩, ⟨_, rfl, skipIf_bne s (s.reg x) (s.reg y)⟩⟩

end Sys2Proof.Machine
end

section
/-! SUPPORT and the statements of 42_alu.md: an instruction of this family writes its result to one register, some the
flag before it (R37, R133), and advances; the rest is the arithmetic of one byte (R120 to R131). -/

namespace Sys2Proof.Machine

open Sys2Proof.Rules

/-! ### What a write-back leaves unchanged -/

section
variable (s : State) (x : Reg) (f b : Byte)

/-- An instruction that writes one register changes nothing else but `pc`. -/
theorem setReg_advance_frame : KeepsRegsBut x s (s.setReg x b).advance ∧ (s.setReg x b).advance.pc = s.pc + 2 ∧
    OnlyRegsAndPc s (s.setReg x b).advance :=
  ⟨keepsRegsBut_setReg_advance s x b, rfl, onlyRegsAndPc_setReg_advance s x b⟩

/-- The same where the byte written is given bit by bit. -/
theorem setReg_advance_bits {b : Byte} {bit : Nat → Bool} (hb : ∀ k, b.getLsbD k = bit k) :
    KeepsRegsBut x s (s.setReg x b).advance ∧ (s.setReg x b).advance.pc = s.pc + 2 ∧
      OnlyRegsAndPc s (s.setReg x b).advance ∧ ∀ k < 8, ((s.setReg x b).advance.reg x).getLsbD k = bit k := by
  refine ⟨keepsRegsBut_setReg_advance s x b, rfl, onlyRegsAndPc_setReg_advance s x b, fun k _ => ?_⟩
  rw [State.reg_advance, State.reg_setReg_self, hb]

/-- The flag is written before the destination, so the destination's value stands even in `VF` (D12). -/
theorem reg_writeFlagged_self : (s.writeFlagged x f b).reg x = b := by
  rw [State.reg_writeFlagged, if_pos rfl]

/-- The same of the number that the destination holds after the instruction. -/
theorem toNat_reg_writeFlagged_advance {f b : Byte} {n : Nat} (hb : b.toNat = n) :
    ((s.writeFlagged x f b).advance.reg x).toNat = n := by
  rw [State.reg_advance, reg_writeFlagged_self, hb]

/-- An instruction that sets the flag changes nothing but its destination, `VF` and `pc`. -/
theorem writeFlagged_advance_frame : KeepsRegsButFlag x s (s.writeFlagged x f b).advance ∧
    (s.writeFlagged x f b).advance.pc = s.pc + 2 ∧ OnlyRegsAndPc s (s.writeFlagged x f b).advance := by
  refine ⟨fun r hr hflag => ?_, rfl, onlyRegsAndPc_setReg_advance (s.setReg VF f) x b⟩
  rw [State.reg_advance, State.reg_writeFlagged, if_neg hr, if_neg hflag]

end

/-! ### The arithmetic of one byte -/

theorem toNat_sub_byte (a b : Byte) : (a - b).toNat = (a.toNat + 256 - b.toNat) % 256 := by
  rw [BitVec.toNat_sub]
  have := b.isLt
  congr 1
  omega

theorem toNat_shiftRight_one (a : Byte) : (a >>> 1).toNat = a.toNat / 2 := by
  rw [BitVec.toNat_ushiftRight, Nat.shiftRight_one]

theorem toNat_shiftLeft_one (a : Byte) : (a <<< 1).toNat = a.toNat * 2 % 256 := by
  rw [BitVec.toNat_shiftLeft, Nat.shiftLeft_eq, Nat.pow_one]

/-- A flag taken from bit `k` of a byte, as a number. -/
theorem toNat_flagByte_getLsbD (a : Byte) (k : Nat) : (flagByte (a.getLsbD k)).toNat = a.toNat / 2 ^ k % 2 := by
  have hflag (c : Bool) : (flagByte c).toNat = c.toNat := by cases c <;> rfl
  rw [hflag, BitVec.getLsbD, Nat.toNat_testBit]

theorem toNat_lowBitFlag (a : Byte) : (lowBitFlag a).toNat = a.toNat % 2 := by
  rw [lowBitFlag, toNat_flagByte_getLsbD, Nat.pow_zero, Nat.div_one]

/-- A byte is below 256, so its quotient by 128 is bit 7 itself. -/
theorem toNat_highBitFlag (a : Byte) : (highBitFlag a).toNat = a.toNat / 128 := by
  rw [highBitFlag, toNat_flagByte_getLsbD]
  have := a.isLt
  omega

theorem and_and_not_eq_zero (a b : Byte) : (a &&& b) &&& ~~~a = 0 := by
  rw [BitVec.and_comm a b, BitVec.and_assoc, BitVec.and_not_self]
  exact BitVec.and_zero

/-- The write-back of the difference `a - b` with its no-borrow flag (R127, R129). -/
theorem writeFlagged_sub_advance (s : State) (x : Reg) (a b : Byte) :
    ((s.writeFlagged x (noBorrowFlag a b) (a - b)).advance.reg x).toNat = (a.toNat + 256 - b.toNat) % 256 ∧
      (x ≠ VF → (s.writeFlagged x (noBorrowFlag a b) (a - b)).advance.reg VF =
        if b.toNat ≤ a.toNat then 1 else 0) ∧
      KeepsRegsButFlag x s (s.writeFlagged x (noBorrowFlag a b) (a - b)).advance ∧
      (s.writeFlagged x (noBorrowFlag a b) (a - b)).advance.pc = s.pc + 2 ∧
      OnlyRegsAndPc s (s.writeFlagged x (noBorrowFlag a b) (a - b)).advance :=
  ⟨toNat_reg_writeFlagged_advance s x (toNat_sub_byte a b),
    fun hx => (reg_VF_writeFlagged s hx _ _).trans (flagByte_decide _), writeFlagged_advance_frame s x _ _⟩

/-! ### The statements -/

/-- Settles O30: both loads write one register, and the destination may be `VF` like any other. -/
theorem loadsSetTheirRegister : Obligations.LoadsSetTheirRegister := fun x y kk s =>
  ⟨⟨_, rfl, s.reg_setReg_self x kk, setReg_advance_frame s x kk⟩,
    ⟨_, rfl, s.reg_setReg_self x (s.reg y), setReg_advance_frame s x (s.reg y)⟩⟩

/-- Settles O31: the sum of two bytes wraps, and the destination is the one register written. -/
theorem addImmediateWrapsWithoutFlag : Obligations.AddImmediateWrapsWithoutFlag := by
  refine fun x kk s => ⟨_, rfl, ?_, setReg_advance_frame s x (s.reg x + kk)⟩
  rw [State.reg_advance, State.reg_setReg_self, BitVec.toNat_add]

/-- Settles O32: each result is the operation on the two bytes, whose bits combine one by one. -/
theorem logicIsBitwiseWithoutFlag : Obligations.LogicIsBitwiseWithoutFlag := fun x _ s =>
  ⟨⟨_, rfl, setReg_advance_bits s x fun _ => BitVec.getLsbD_or⟩,
    ⟨_, rfl, setReg_advance_bits s x fun _ => BitVec.getLsbD_and⟩,
    ⟨_, rfl, setReg_advance_bits s x fun _ => BitVec.getLsbD_xor⟩⟩

/-- Settles O33: the flag stands unless the destination is `VF`, where the sum is written after it. -/
theorem addRegistersSetsCarry : Obligations.AddRegistersSetsCarry := fun x _ s =>
  ⟨_, rfl, toNat_reg_writeFlagged_advance s x (BitVec.toNat_add _ _),
    fun hx => (reg_VF_writeFlagged s hx _ _).trans (flagByte_decide _), writeFlagged_advance_frame s x _ _⟩

/-- Settles O34: `SUBN` is `SUB` with the operands exchanged, in the difference and in the flag. -/
theorem subtractionsSetNoBorrow : Obligations.SubtractionsSetNoBorrow := fun x y s =>
  ⟨⟨_, rfl, writeFlagged_sub_advance s x (s.reg x) (s.reg y)⟩,
    ⟨_, rfl, writeFlagged_sub_advance s x (s.reg y) (s.reg x)⟩⟩

/-- Settles O35: a shift by one divides or multiplies by 2, and the bit that leaves is bit 0 or bit 7. -/
theorem shiftsInPlaceSetShiftedOutBit : Obligations.ShiftsInPlaceSetShiftedOutBit := by
  intro x y s
  have hflag {f : Byte} {n : Nat} (b : Byte) (hf : f.toNat = n) (hx : x ≠ VF) :
      ((s.writeFlagged x f b).advance.reg VF).toNat = n := by
    rw [State.reg_advance, reg_VF_writeFlagged s hx, hf]
  exact ⟨⟨_, rfl, toNat_reg_writeFlagged_advance s x (toNat_shiftRight_one _), hflag _ (toNat_lowBitFlag _),
      writeFlagged_advance_frame s x _ _⟩,
    ⟨_, rfl, toNat_reg_writeFlagged_advance s x (toNat_shiftLeft_one _), hflag _ (toNat_highBitFlag _),
      writeFlagged_advance_frame s x _ _⟩⟩

/-- Settles O37: the draw counter moves, and the mask clears every bit outside `kk` of any byte at all. -/
theorem rndMasksAFreeByte : Obligations.RndMasksAFreeByte := by
  intro x kk s
  have hx : (s.setReg x (kk &&& s.rndByte)).drawn.advance.reg x = kk &&& Config.rnd s.draws :=
    s.reg_setReg_self x (kk &&& s.rndByte)
  refine ⟨_, rfl, hx, ?_, rfl, fun _ hr => s.reg_setReg_ne hr _, rfl, rfl, ⟨rfl, rfl⟩, ⟨rfl, rfl⟩, rfl,
    ⟨rfl, rfl, rfl⟩, rfl, fun _ => rfl⟩
  rw [hx, and_and_not_eq_zero]

end Sys2Proof.Machine
end

section
/-! SUPPORT and the statements of 43_index_memory.md: what a store from `I` on and a load from it do once their range is
in bounds (R58, R59), and the addresses that `I` takes (R140 to R142). -/

namespace Sys2Proof.Machine

open Sys2Proof.Rules

/-! ### A store in range -/

/-- The state after bytes are stored from `I` on. -/
def State.stored (s : State) (bs : List Byte) : State := (s.setMem (s.mem.writeBytes s.i.toNat bs)).advance

theorem add_le_memSize_of_not_outOfRange {s : State} {k : Nat} (h : ¬ OutOfRange s (k + 1)) :
    s.i.toNat + (k + 1) ≤ Config.memSize := by
  have hk := (inBounds_eq_true _ _).1 (inBounds_of_not_outOfRange h)
  simp only [Config.memSize]
  omega

section
variable {s : State} {bs : List Byte} {k : Nat} (hlen : bs.length = k + 1) (h : ¬ OutOfRange s (k + 1))
include hlen

include h in
theorem State.storeAtIndex_of_inRange (i : Instr) : s.storeAtIndex i bs = .next (s.stored bs) :=
  if_pos (inBounds_of_not_outOfRange (hlen ▸ h))

variable (hwf : s.mem.wf = true)
include h hwf

theorem State.byte_stored (c : Nat) : (s.stored bs).byte c =
    if s.i.toNat ≤ c ∧ c < s.i.toNat + (k + 1) then bs.getD (c - s.i.toNat) 0 else s.byte c := by
  rw [← hlen]
  exact Memory.read_writeBytes hwf (hlen ▸ add_le_memSize_of_not_outOfRange h) c

/-- The byte stored at offset `n` from `I`. -/
theorem State.byte_stored_add {n : Nat} (hn : n ≤ k) : (s.stored bs).byte (s.i.toNat + n) = bs.getD n 0 := by
  rw [State.byte_stored hlen h hwf, if_pos (by omega), Nat.add_sub_cancel_left]

/-- A store changes nothing but its own range and `pc`. -/
theorem stored_frame : KeepsMemoryOutside s.i.toNat (k + 1) s (s.stored bs) ∧ (s.stored bs).pc = s.pc + 2 ∧
    KeepsRegs s (s.stored bs) ∧ KeepsSpecials s (s.stored bs) := by
  refine ⟨fun c hc => ?_, rfl, fun _ => rfl, rfl, ⟨rfl, rfl⟩, ⟨rfl, rfl⟩, rfl, ⟨rfl, rfl, rfl⟩, rfl, rfl⟩
  rw [State.byte_stored hlen h hwf, if_neg (by omega)]

end

/-! ### A store of registers in range -/

section
variable {x : Reg} {s : State} (h : ¬ OutOfRange s (x.toNat + 1))
include h

theorem exec_stRegs_of_inRange : exec (.stRegs x) s = .next (s.stored (s.regsUpTo x)) :=
  State.storeAtIndex_of_inRange (s.length_regsUpTo x) h (.stRegs x)

/-- `LD [I],Vx` in range stores register `r` at `I + r`. -/
theorem byte_stored_regsUpTo (hwf : s.mem.wf = true) {r : Reg} (hr : r.toNat ≤ x.toNat) :
    (s.stored (s.regsUpTo x)).byte (s.i.toNat + r.toNat) = s.reg r := by
  rw [State.byte_stored_add (s.length_regsUpTo x) h hwf hr, s.getD_regsUpTo x r hr]

end

/-! ### A load in range -/

/-- The state after `V[0]` to `V[x]` are loaded from `I` on. -/
def State.loaded (s : State) (x : Reg) : State :=
  (s.setRegs (writeRegs s.v 0 (s.mem.readBytes s.i.toNat (regCount x)))).advance

theorem exec_ldRegs_of_inRange {s : State} {x : Reg} (h : ¬ OutOfRange s (x.toNat + 1)) :
    exec (.ldRegs x) s = .next (s.loaded x) :=
  if_pos (inBounds_of_not_outOfRange h)

theorem Memory.getD_readBytes (m : Memory) (a : Nat) {n k : Nat} (hk : k < n) :
    (m.readBytes a n).getD k 0 = m.read (a + k) := by
  have hlen : k < (m.readBytes a n).length := by rwa [Memory.length_readBytes]
  rw [← List.getElem_eq_getD (h := hlen), Memory.getElem_readBytes]

/-- The load reads register `r` from `I + r`, up to register `x`. -/
theorem State.reg_loaded (s : State) (x r : Reg) :
    (s.loaded x).reg r = if r.toNat ≤ x.toNat then s.byte (s.i.toNat + r.toNat) else s.reg r := by
  show (writeRegs s.v 0 _)[r.toNat] = _
  rw [getElem_writeRegs, Memory.length_readBytes, Nat.sub_zero, Nat.zero_add, regCount]
  by_cases hr : r.toNat < x.toNat + 1
  · rw [if_pos ⟨Nat.zero_le _, hr⟩, if_pos (Nat.le_of_lt_succ hr), Memory.getD_readBytes _ _ hr]
    rfl
  · rw [if_neg fun hin => hr hin.2, if_neg fun hle => hr (Nat.lt_succ_of_le hle)]
    rfl

/-! ### The values of `I` and of the digits, as numbers -/

theorem toNat_indexSum (i : Word) (b : Byte) : (indexSum i b).toNat = (i.toNat + b.toNat) % 65536 := by
  rw [indexSum, BitVec.toNat_add, BitVec.toNat_setWidth_of_le (by decide)]

/-- Five times a byte is far below 65536, so no glyph address wraps. -/
theorem toNat_glyphAddress (b : Byte) : (glyphAddress b).toNat = b.toNat * 5 := by
  have := b.isLt
  rw [glyphAddress, BitVec.toNat_ofNat, Config.glyphSize]
  omega

/-- Each digit of a byte is itself a byte: the conversion loses nothing. -/
theorem toNat_getD_bcdDigits (b : Byte) : ((bcdDigits b).getD 0 0).toNat = b.toNat / 100 ∧
    ((bcdDigits b).getD 1 0).toNat = b.toNat / 10 % 10 ∧ ((bcdDigits b).getD 2 0).toNat = b.toNat % 10 := by
  have := b.isLt
  simp only [bcdDigits, List.getD_cons_zero, List.getD_cons_succ, BitVec.toNat_ofNat]
  omega

/-! ### The statements -/

/-- Settles O38: `I` is the one field written besides `pc`, so giving it its old value back leaves only `pc`. -/
theorem indexInstructionsSetIndex : Obligations.IndexInstructionsSetIndex := fun nnn x s =>
  ⟨⟨_, rfl, toNat_addressOf nnn, rfl, onlyPc_setPc s _⟩, ⟨_, rfl, toNat_indexSum s.i (s.reg x), rfl, onlyPc_setPc s _⟩,
    ⟨_, rfl, toNat_glyphAddress (s.reg x), rfl, onlyPc_setPc s _⟩⟩

/-- Settles O39: a store of the three digits. -/
theorem bcdStoresThreeDigits : Obligations.BcdStoresThreeDigits := by
  intro x s hwf h
  have hlen : (bcdDigits (s.reg x)).length = 2 + 1 := rfl
  have hdigit {n d : Nat} (hn : n ≤ 2) (hd : ((bcdDigits (s.reg x)).getD n 0).toNat = d) :
      ((s.stored (bcdDigits (s.reg x))).byte (s.i.toNat + n)).toNat = d := by
    rw [State.byte_stored_add hlen h hwf hn, hd]
  obtain ⟨hundreds, tens, ones⟩ := toNat_getD_bcdDigits (s.reg x)
  exact ⟨_, State.storeAtIndex_of_inRange hlen h (.ldB x), hdigit (by decide) hundreds, hdigit (by decide) tens,
    hdigit (by decide) ones, stored_frame hlen h hwf⟩

/-- Settles O40: a store of `V[0]` to `V[x]`. -/
theorem storeRegistersWritesRange : Obligations.StoreRegistersWritesRange := fun x s hwf h =>
  ⟨_, exec_stRegs_of_inRange h, fun _ hr => byte_stored_regsUpTo h hwf hr,
    stored_frame (s.length_regsUpTo x) h hwf⟩

/-- Settles O41: the registers up to `x` are loaded, those above keep what they hold. -/
theorem loadRegistersReadsRange : Obligations.LoadRegistersReadsRange := fun x s h =>
  ⟨_, exec_ldRegs_of_inRange h, fun r hr => (s.reg_loaded x r).trans (if_pos hr),
    fun r hr => (s.reg_loaded x r).trans (if_neg (Nat.not_le.2 hr)), rfl,
    ⟨rfl, ⟨rfl, rfl⟩, ⟨rfl, rfl⟩, rfl, ⟨rfl, rfl, rfl⟩, rfl, rfl⟩, fun _ => rfl⟩

/-- Settles O42: the store leaves `I`, so the load reads at `I + r` the byte that register `r` stored there. -/
theorem storeThenLoadRestoresRegisters : Obligations.StoreThenLoadRestoresRegisters := by
  refine fun x s hwf h => ⟨_, exec_stRegs_of_inRange h, fun u hmem hi => ?_⟩
  have hi' : u.i = s.i := hi
  have hu : ¬ OutOfRange u (x.toNat + 1) := by rwa [OutOfRange, hi']
  refine ⟨_, exec_ldRegs_of_inRange hu, fun r => ?_⟩
  rw [State.reg_loaded]
  split
  case isTrue hr =>
    rw [State.byte, hmem, hi']
    exact byte_stored_regsUpTo h hwf hr
  case isFalse => rfl

end Sys2Proof.Machine
end

section
/-! SUPPORT and the statements of 44_display.md: what a whole draw does to each pixel (R161), when it collides (R162),
and what `CLS` and `DRW` do with it (R160, R163). -/

namespace Sys2Proof.Machine

open Sys2Proof.Rules

/-! ### The columns of one sprite row (R161) -/

/-- Source bit `c` of a sprite row lands in its target column. -/
theorem getMsbD_spriteRow_targetCol (x0 : Nat) (b : Byte) {c : Nat} (hc : c < 8) :
    (spriteRow x0 b).getMsbD (targetCol x0 c) = b.getLsbD (7 - c) := by
  have hcol : ((targetCol x0 c : Nat) + 64 - x0 % 64) % 64 = c := by
    simp only [targetCol]
    omega
  rw [getMsbD_spriteRow, hcol, BitVec.getMsbD_eq_getLsbD, decide_eq_true hc, Bool.true_and, Bool.true_and]

/-- A sprite row is off in every column that is no target. -/
theorem getMsbD_spriteRow_of_ne {x0 : Nat} {tc : Fin 64} (h : ∀ c < 8, tc ≠ targetCol x0 c) (b : Byte) :
    (spriteRow x0 b).getMsbD tc = false := by
  have hcol : tc = targetCol x0 ((tc + 64 - x0 % 64) % 64) := by
    refine Fin.ext ?_
    simp only [targetCol]
    omega
  rw [getMsbD_spriteRow, decide_eq_false fun hlt => h _ hlt hcol, Bool.false_and]

/-! ### A draw, pixel by pixel (R161) -/

theorem targetRow_eq_rowAt (y r : Nat) : targetRow y r = rowAt (y + r) := rfl

/-- With at most 32 sprite rows, the display row that sprite row `r` lands on is toggled by that sprite row alone. -/
theorem pixel_draw_rowAt {rows : List Byte} {r : Nat} (hlen : rows.length ≤ 32) (hr : r < rows.length)
    (fb : Bitmap) (x0 y : Nat) (tc : Fin 64) :
    pixel (draw fb x0 y rows) (rowAt (y + r)) tc
      = (pixel fb (rowAt (y + r)) tc ^^ (spriteRow x0 (rows.getD r 0)).getMsbD tc) := by
  induction rows generalizing fb y r with
  | nil => cases hr
  | cons b rows ih =>
    cases r with
    | zero =>
      have hrest : ∀ k < rows.length, rowAt y ≠ rowAt (y + 1 + k) := fun k hk => rowAt_ne_of_lt hk hlen
      rw [Nat.add_zero, draw, pixel_draw_of_row_ne x0 hrest, pixel_drawRow, if_pos rfl, List.getD_cons_zero]
    | succ r =>
      have hr' : r < rows.length := Nat.lt_of_succ_lt_succ hr
      have hne : rowAt (y + 1 + r) ≠ rowAt y := (rowAt_ne_of_lt hr' hlen).symm
      rw [← Nat.add_assoc, Nat.add_right_comm, draw, ih (Nat.le_of_succ_le hlen) hr', pixel_drawRow, if_neg hne,
        List.getD_cons_succ]

/-- R161 for every sprite that does not reach one display row twice. -/
theorem drawn_draw {rows : List Byte} (hlen : rows.length ≤ 32) (fb : Bitmap) (x0 y0 : Nat) :
    Drawn fb (draw fb x0 y0 rows) x0 y0 rows := by
  constructor
  · intro r c hr hc
    rw [targetRow_eq_rowAt, pixel_draw_rowAt hlen hr, getMsbD_spriteRow_targetCol x0 _ hc, spriteBit]
  · intro tr tc hno
    by_cases htr : ∃ r < rows.length, tr = targetRow y0 r
    · obtain ⟨r, hr, rfl⟩ := htr
      have htc : ∀ c < 8, tc ≠ targetCol x0 c := fun c hc heq => hno r c hr hc ⟨rfl, heq⟩
      rw [targetRow_eq_rowAt, pixel_draw_rowAt hlen hr, getMsbD_spriteRow_of_ne htc, Bool.xor_false]
    · exact pixel_draw_of_row_ne x0 (fun k hk heq => htr ⟨k, hk, heq⟩) fb tc

/-! ### What follows from R161 of any two bitmaps -/

section
variable {fb fb' : Bitmap} {x0 y0 : Nat} {rows : List Byte} (h : Drawn fb fb' x0 y0 rows)
include h

/-- The pixels that go from on to off are the lit targets of 1 bits (R162). -/
theorem turnsOff_iff_hitsLitPixel :
    (∃ tr tc, pixel fb tr tc = true ∧ pixel fb' tr tc = false) ↔ HitsLitPixel fb x0 y0 rows := by
  obtain ⟨htarget, hrest⟩ := h
  constructor
  · rintro ⟨tr, tc, hon, hoff⟩
    by_contra hmiss
    have hkept : pixel fb' tr tc = pixel fb tr tc := by
      refine hrest tr tc fun r c hr hc => ?_
      rintro ⟨rfl, rfl⟩
      rw [htarget r c hr hc, hon] at hoff
      exact hmiss ⟨r, c, hr, hc, by simpa using hoff, hon⟩
    rw [hkept, hon] at hoff
    cases hoff
  · rintro ⟨r, c, hr, hc, hbit, hon⟩
    exact ⟨_, _, hon, by rw [htarget r c hr hc, hon, hbit, Bool.xor_self]⟩

/-- Toggling the same targets again gives every pixel its first value. -/
theorem pixel_eq_of_drawn_twice {fb'' : Bitmap} (h' : Drawn fb' fb'' x0 y0 rows) (tr : Fin 32) (tc : Fin 64) :
    pixel fb'' tr tc = pixel fb tr tc := by
  by_cases hhit : ∃ r c, r < rows.length ∧ c < 8 ∧ tr = targetRow y0 r ∧ tc = targetCol x0 c
  · obtain ⟨r, c, hr, hc, rfl, rfl⟩ := hhit
    rw [h'.1 r c hr hc, h.1 r c hr hc, Bool.xor_assoc, Bool.xor_self, Bool.xor_false]
  · have hno : ∀ r c, r < rows.length → c < 8 → ¬ (tr = targetRow y0 r ∧ tc = targetCol x0 c) :=
      fun r c hr hc heq => hhit ⟨r, c, hr, hc, heq⟩
    rw [h'.2 tr tc hno, h.2 tr tc hno]

/-- A 1 bit that hit no lit pixel has lit its target, which the same sprite then hits. -/
theorem hitsLitPixel_again (hmiss : ¬ HitsLitPixel fb x0 y0 rows) {r c : Nat} (hr : r < rows.length) (hc : c < 8)
    (hbit : spriteBit rows r c = true) : HitsLitPixel fb' x0 y0 rows := by
  have hoff : pixel fb (targetRow y0 r) (targetCol x0 c) = false := by
    rw [← Bool.not_eq_true]
    exact fun hon => hmiss ⟨r, c, hr, hc, hbit, hon⟩
  exact ⟨r, c, hr, hc, hbit, by rw [h.1 r c hr hc, hoff, hbit, Bool.false_xor]⟩

end

/-- A bitmap is its pixels. -/
theorem eq_of_pixel_eq {fb fb' : Bitmap} (h : ∀ r c, pixel fb r c = pixel fb' r c) : fb = fb' :=
  Vector.ext fun r hr => BitVec.eq_of_getMsbD_eq fun c hc => h ⟨r, hr⟩ ⟨c, hc⟩

theorem exists_spriteBit_of_mem {rows : List Byte} {b : Byte} (hb : b ∈ rows) (hne : b ≠ 0) :
    ∃ r c, r < rows.length ∧ c < 8 ∧ spriteBit rows r c = true := by
  obtain ⟨r, hr, rfl⟩ := List.getElem_of_mem hb
  by_contra hnone
  refine hne (BitVec.eq_of_getMsbD_eq fun c hc => ?_)
  have hbit : ¬ rows[r].getLsbD (7 - c) = true := fun hbit =>
    hnone ⟨r, c, hr, hc, by rwa [spriteBit, ← List.getElem_eq_getD (h := hr)]⟩
  simpa [BitVec.getMsbD_eq_getLsbD] using fun _ => hbit

/-- R162 for every sprite that does not reach one display row twice. -/
theorem collides_iff_hitsLitPixel {rows : List Byte} (hlen : rows.length ≤ 32) (fb : Bitmap) (x0 y0 : Nat) :
    collides fb x0 y0 rows = true ↔ HitsLitPixel fb x0 y0 rows :=
  (collides_iff_pixel_turns_off hlen fb x0 y0).trans (turnsOff_iff_hitsLitPixel (drawn_draw hlen fb x0 y0))

/-! ### `DRW` in range (R163) -/

/-- The state after a sprite is drawn at `(x0, y0)` and its collision reported in `VF`. -/
def State.spriteDrawn (s : State) (x0 y0 : Nat) (rows : List Byte) : State :=
  ((s.setFb (draw s.fb x0 y0 rows)).setReg VF (flagByte (collides s.fb x0 y0 rows))).advance

theorem exec_drw_of_inRange {x y : Reg} {n : Nibble} {s : State} (h : ¬ OutOfRange s n.toNat) :
    exec (.drw x y n) s
      = .next (s.spriteDrawn (s.reg x).toNat (s.reg y).toNat (s.mem.readBytes s.i.toNat n.toNat)) :=
  if_pos (inBounds_of_not_outOfRange h)

theorem Memory.readBytes_eq_map_range (m : Memory) (a n : Nat) :
    m.readBytes a n = (List.range n).map fun k => m.read (a + k) :=
  List.ext_getElem (by simp) fun k hk _ => by simp [Memory.getElem_readBytes m a n k hk]

theorem State.reg_VF_spriteDrawn (s : State) (x0 y0 : Nat) (rows : List Byte) :
    (s.spriteDrawn x0 y0 rows).reg VF = flagByte (collides s.fb x0 y0 rows) := by
  rw [State.spriteDrawn, State.reg_advance, State.reg_setReg_self]

/-! ### The statements -/

/-- Settles O44: the blank bitmap is the one field written besides `pc`. -/
theorem clsTurnsEveryPixelOff : Obligations.ClsTurnsEveryPixelOff := fun s =>
  ⟨_, rfl, pixel_blankBitmap, rfl, onlyPc_setPc s (s.pc + 2)⟩

/-- Settles O45: fifteen rows never reach one display row twice. -/
theorem rasterizerXorsEveryTarget : Obligations.RasterizerXorsEveryTarget := fun fb x0 y0 _ hlen =>
  drawn_draw (hlen.trans (by decide)) fb x0.toNat y0.toNat

/-- Settles O46: a draw collides when a pixel goes off, and those are the lit targets of 1 bits. -/
theorem collisionIsALitPixelHit : Obligations.CollisionIsALitPixelHit := fun fb x0 y0 _ hlen =>
  collides_iff_hitsLitPixel (hlen.trans (by decide)) fb x0.toNat y0.toNat

/-- Settles O47: the rows read are those of the statement, and the flag is written last. -/
theorem drwDrawsAndReportsCollision : Obligations.DrwDrawsAndReportsCollision := by
  intro x y n s rows h hrows
  obtain rfl : s.mem.readBytes s.i.toNat n.toNat = rows :=
    (Memory.readBytes_eq_map_range s.mem s.i.toNat n.toNat).trans hrows.symm
  have hlen : (s.mem.readBytes s.i.toNat n.toNat).length ≤ 32 := by
    rw [Memory.length_readBytes]
    omega
  have hcollides := collides_iff_hitsLitPixel hlen s.fb (s.reg x).toNat (s.reg y).toNat
  refine ⟨_, exec_drw_of_inRange h, drawn_draw hlen s.fb _ _, fun hhit => ?_, fun hmiss => ?_,
    keepsRegsBut_setReg_advance (s.setFb _) VF _, rfl, onlyRegsAndPc_setReg_advance s VF _⟩
  · rw [State.reg_VF_spriteDrawn, hcollides.2 hhit, flagByte_true]
  · rw [State.reg_VF_spriteDrawn, Bool.eq_false_iff.2 (mt hcollides.1 hmiss), flagByte_false]

/-- Settles O48: the second draw toggles the pixels that the first one did, among them the targets of the 1 bits, which
the first one lit where it did not collide. -/
theorem drawingTwiceRestoresBitmap : Obligations.DrawingTwiceRestoresBitmap := by
  intro fb x0 y0 rows hlen
  have hlen32 : rows.length ≤ 32 := hlen.trans (by decide)
  have hfirst := drawn_draw hlen32 fb x0.toNat y0.toNat
  have hsecond := drawn_draw hlen32 (draw fb x0.toNat y0.toNat rows) x0.toNat y0.toNat
  refine ⟨eq_of_pixel_eq (pixel_eq_of_drawn_twice hfirst hsecond), fun hno ⟨b, hb, hne⟩ => ?_⟩
  obtain ⟨r, c, hr, hc, hbit⟩ := exists_spriteBit_of_mem hb hne
  have hmiss : ¬ HitsLitPixel fb x0.toNat y0.toNat rows := by
    rw [← collides_iff_hitsLitPixel hlen32, hno]
    exact Bool.false_ne_true
  exact (collides_iff_hitsLitPixel hlen32 _ _ _).2 (hitsLitPixel_again hfirst hmiss hr hc hbit)

end Sys2Proof.Machine
end

section
/-! SUPPORT and the statements of 45_keypad_timers.md about the keys: what the two key skips answer for a symbol up to 15
and above it (R170, R171, R195), and which key `LD Vx,K` finds (R172). -/

namespace Sys2Proof.Machine

open Sys2Proof.Rules

/-! ### The key skips (R170, R171, R195) -/

section
variable {x : Reg} {s : State}

theorem State.isKeyDown_of_toNat_eq {b : Byte} {k : Fin 16} (h : b.toNat = k.val) :
    s.isKeyDown b = some s.key[k] := by
  rw [isKeyDown_eq_getElem?, h]
  exact Vector.getElem?_eq_getElem k.isLt

/-- A symbol that names a key: the skips take its state, and the opposite of it, as their condition. -/
theorem exec_keySkip_of_some {down : Bool} (h : s.isKeyDown (s.reg x) = some down) :
    exec (.skp x) s = .next (s.skipIf down) ∧ exec (.sknp x) s = .next (s.skipIf (!down)) := by
  simp only [exec, execSkp, execSknp, h, and_self]

/-- A symbol that names no key: both skips enter the fault with their own encoding. -/
theorem exec_keySkip_of_none (h : s.isKeyDown (s.reg x) = none) :
    exec (.skp x) s = .next (s.raiseBy .invalidKey (.skp x)) ∧
      exec (.sknp x) s = .next (s.raiseBy .invalidKey (.sknp x)) := by
  simp only [exec, execSkp, execSknp, h, and_self]

end

/-- A skip on the opposite of a condition exchanges the two addresses. -/
theorem skipAddress_not (pc0 : Word) (cond : Bool) :
    skipAddress pc0 (!cond) = if cond = true then pc0 + 2 else pc0 + 4 := by
  cases cond <;> rfl

/-! ### The key that `LD Vx,K` finds (R172) -/

section
variable {x : Reg} {s : State}

/-- A key that is down while every lower one is up is the one found. -/
theorem State.lowestKeyDown_of_lowest {k : Fin 16} (hdown : s.key[k] = true)
    (hup : ∀ j : Fin 16, j < k → s.key[j] = false) : s.lowestKeyDown = some k.val := by
  rw [State.lowestKeyDown, List.findIdx?_eq_some_iff_getElem]
  refine ⟨by simp, by simpa using hdown, fun j hj => ?_⟩
  simpa using hup ⟨j, hj.trans k.isLt⟩ hj

theorem exec_ldVxK_of_none (h : s.lowestKeyDown = none) : exec (.ldVxK x) s = .next s := by
  simp only [exec, execLdVxK, h]

theorem exec_ldVxK_of_some {k : Nat} (h : s.lowestKeyDown = some k) :
    exec (.ldVxK x) s = .next (s.setReg x (BitVec.ofNat 8 k)).advance := by
  simp only [exec, execLdVxK, h]

end

/-- A symbol of the keypad fits a byte. -/
theorem toNat_ofNat_symbol (k : Fin 16) : (BitVec.ofNat 8 k.val).toNat = k.val :=
  Nat.mod_eq_of_lt (k.isLt.trans (by decide))

/-! ### The statements -/

/-- Settles O51: the search for a key fails exactly while every key is up, and else ends at the lowest that is down,
whose symbol fits the register. -/
theorem keyWaitTakesLowestKey : Obligations.KeyWaitTakesLowestKey := by
  refine fun x s => ⟨fun hup => exec_ldVxK_of_none (s.lowestKeyDown_eq_none.2 hup), fun k hdown hup => ?_⟩
  refine ⟨_, exec_ldVxK_of_some (State.lowestKeyDown_of_lowest hdown hup), ?_, setReg_advance_frame s x _⟩
  rw [State.reg_advance, State.reg_setReg_self, toNat_ofNat_symbol]

/-- Settles O49: the symbol names key `k`, whose state is the condition of `SKP`, and the opposite of it that of
`SKNP`. -/
theorem keySkipsQueryOneKey : Obligations.KeySkipsQueryOneKey := by
  intro x k s hsymbol
  obtain ⟨hskp, hsknp⟩ := exec_keySkip_of_some (State.isKeyDown_of_toNat_eq hsymbol)
  exact ⟨⟨_, hskp, onlyPc_setPc s _, rfl⟩, ⟨_, hsknp, onlyPc_setPc s _, skipAddress_not s.pc _⟩⟩

/-- Settles O50: the query has no answer for the symbol, and the fault entry writes only the latch. -/
theorem invalidKeyFaults : Obligations.InvalidKeyFaults := fun x s hsymbol =>
  exec_keySkip_of_none ((s.isKeyDown_eq_none (s.reg x)).2 hsymbol)

end Sys2Proof.Machine
end

section
/-! SUPPORT and the statements of 60_exceptions.md: a fault entry writes the latch and nothing else (R193 to R197), a
faulted machine is halted (R198), and what the events `tick`, `key_set` and `fb_read` do (R210, R213, R214). -/

namespace Sys2Proof.Machine

open Sys2Proof.Rules

/-! ### Precise faults (R196, R197) -/

/-- The record of an instruction's own fault: the word at `pc0`, since the decoded instruction encodes to it (D26). -/
theorem faultRecord_of_raisedBy {i : Instr} {c : Cause} {s : State} (hraised : raisedBy i = some c)
    (hdecode : decodeWord (wordOfBytes (s.byte s.pc.toNat) (s.byte (s.pc.toNat + 1))) = i) :
    FaultRecord c (encode i) s := by
  obtain ⟨hnone, hfetch⟩ := raisedBy_ne hraised
  subst hdecode
  exact ⟨hnone, fun h => absurd h hfetch, fun _ => encode_decodeWord _⟩

theorem faultRecord_fetchFault (s : State) : FaultRecord .fetchFault 0 s :=
  ⟨by decide, fun _ => rfl, fun h => absurd rfl h⟩

section
variable {s t : State} (hrun : s.Running) (hfault : ¬ t.Running)
include hrun hfault

/-- A `step` event faults in the fetch or in the instruction it runs, and each enters the fault with its record. -/
theorem cycle_fault_precise (ht : cycle s = .next t) : ∃ c op, t = faulted c op s ∧ FaultRecord c op s := by
  rcases cycle_cases s with ⟨hhalted, _⟩ | ⟨_, _, hfetch⟩ | ⟨_, _, hexec⟩
  · exact absurd hrun hhalted
  · cases hfetch.symm.trans ht
    exact ⟨.fetchFault, 0, rfl, faultRecord_fetchFault s⟩
  · rcases (exec_inv (hexec.symm.trans ht)).fault_cases with hkept | ⟨c, hraised, rfl⟩
    · exact absurd ((congrArg FaultLatch.cause hkept).trans hrun) hfault
    · exact ⟨c, _, rfl, faultRecord_of_raisedBy hraised rfl⟩

/-- The other events keep the latch or clear it, so none of them faults. -/
theorem present_fault_precise {e : Event} (ht : present e s = .next t) :
    e = .step ∧ ∃ c op, t = faulted c op s ∧ FaultRecord c op s := by
  cases e
  case step => exact ⟨rfl, cycle_fault_precise hrun hfault ht⟩
  case reset | load => cases ht; exact absurd rfl hfault
  case tick | keySet | fbRead => cases ht; exact absurd hrun hfault

end

/-- Settles O22: a step is some event, on a state that differs in the events to come alone, which no record reads. -/
theorem faultsArePrecise : Obligations.FaultsArePrecise := by
  refine ⟨fun _ _ _ hrun ht hfault => present_fault_precise hrun hfault ht, fun s t hrun ht hfault => ?_⟩
  obtain ⟨e, d, sch, he⟩ := step_eq_present s
  obtain ⟨-, c, op, rfl, hrecord⟩ :=
    present_fault_precise (s := { s with driver := d, schedule := sch }) hrun hfault (he.symm.trans ht)
  exact ⟨c, op, rfl, hrecord⟩

/-! ### `CALL` on a full stack and `RET` on an empty one (R193, R194) -/

theorem exec_call_of_full (nnn : Addr12) {s : State} (h : s.sp.val = 16) :
    exec (.call nnn) s = .next (s.raiseBy .stackOverflow (.call nnn)) := by
  simp only [exec, execCall, (s.push_eq_none _).2 h]

theorem exec_ret_of_empty {s : State} (h : s.sp.val = 0) : exec .ret s = .next (s.raiseBy .stackUnderflow .ret) := by
  simp only [exec, execRet, s.pop_eq_none.2 h]

/-- Settles O26: the push and the pop fail, and the fault entry writes only the latch, with the instruction's own
encoding. -/
theorem stackMisuseFaults : Obligations.StackMisuseFaults :=
  ⟨fun nnn _ h => exec_call_of_full nnn h, fun _ h => exec_ret_of_empty h⟩

/-! ### `key_set` and sequences of it (R214) -/

/-- The frame of an event: with the fields it writes put back, the state is the one before. -/
theorem onlyPc_refl (s : State) : OnlyPc s s :=
  onlyPc_setPc s s.pc

/-- The state after the keys of a list are set, one after the other. -/
def State.setKeys (s : State) (ks : List (Nibble × Bool)) : State := ks.foldl (fun t e => t.setKey e.1 e.2) s

@[simp] theorem State.setKeys_cons (s : State) (e : Nibble × Bool) (ks : List (Nibble × Bool)) :
    s.setKeys (e :: ks) = (s.setKey e.1 e.2).setKeys ks := rfl

theorem leave_keySets (s : State) (ks : List (Nibble × Bool)) : Leave (keySets ks) s (s.setKeys ks) := by
  induction ks generalizing s with
  | nil => rfl
  | cons e ks ih => exact ⟨_, rfl, ih _⟩

/-- Only keys are written. -/
theorem State.setKeys_eq_with_key (s : State) (ks : List (Nibble × Bool)) :
    s.setKeys ks = { s with key := (s.setKeys ks).key } := by
  induction ks generalizing s with
  | nil => rfl
  | cons e ks ih => exact ih (s.setKey e.1 e.2)

theorem State.getElem_key_setKey (s : State) (k : Nibble) (b : Bool) (j : Fin 16) :
    (s.setKey k b).key[j] = if j.val = k.toNat then b else s.key[j] := by
  simp only [State.setKey_key, Fin.getElem_fin, Vector.getElem_set, eq_comm]

/-- The settings that give each listed key the state it has in `keys`. -/
def settingsOf (keys : Vector Bool 16) (ks : List (Fin 16)) : List (Nibble × Bool) :=
  ks.map fun k => (BitVec.ofFin k, keys[k])

/-- A listed key takes the state it has in `keys`, however often it is set; every other key stays. -/
theorem State.getElem_key_setKeys_settingsOf (s : State) (keys : Vector Bool 16) (ks : List (Fin 16)) (j : Fin 16) :
    (s.setKeys (settingsOf keys ks)).key[j] = if j ∈ ks then keys[j] else s.key[j] := by
  induction ks generalizing s with
  | nil => rfl
  | cons k ks ih =>
    have hhead : (s.setKey (BitVec.ofFin k) keys[k]).key[j] = if j = k then keys[k] else s.key[j] := by
      simp only [State.getElem_key_setKey, BitVec.toNat_ofFin, Fin.val_inj]
    rw [settingsOf, List.map_cons, State.setKeys_cons, ← settingsOf, ih, hhead]
    by_cases hj : j = k
    · subst hj
      simp
    · simp [hj]

/-- Setting all sixteen keys reaches any combination of key states. -/
theorem State.setKeys_settingsOf_all (s : State) (keys : Vector Bool 16) :
    s.setKeys (settingsOf keys (List.finRange 16)) = { s with key := keys } := by
  have hkeys : (s.setKeys (settingsOf keys (List.finRange 16))).key = keys := Vector.ext fun j hj =>
    (s.getElem_key_setKeys_settingsOf keys _ ⟨j, hj⟩).trans (if_pos (List.mem_finRange _))
  rw [State.setKeys_eq_with_key, hkeys]

/-- Settles O55: the sequence that sets all sixteen keys reaches the combination asked for. -/
theorem keySetWritesOneKey : Obligations.KeySetWritesOneKey :=
  ⟨fun k b s => ⟨_, rfl, s.getElem_key_setKey k b, rfl, onlyPc_refl s⟩,
    fun s ks => ⟨_, leave_keySets s ks⟩,
    fun s keys => ⟨_, s.setKeys_settingsOf_all keys ▸ leave_keySets s _⟩⟩

/-! ### A faulted machine (R198) -/

/-- Settles O8: the latch is looked at first, so `step` does nothing; `tick` and `key_set` do not look at it, and
`reset` and `load` clear it. -/
theorem faultedMachineIsHalted : Obligations.FaultedMachineIsHalted := by
  intro s hfaulted
  have hhalted : cycle s = .next s := cycle_of_faulted hfaulted
  refine ⟨hhalted, fun ⟨hdriver, hschedule⟩ => (step_of_stepsOnly hdriver hschedule).trans hhalted,
    ⟨_, rfl, rfl, toNat_decrement s.dt, toNat_decrement s.st⟩, fun k b => ⟨_, rfl, rfl, ?_⟩, ⟨_, rfl, rfl⟩,
    fun _ => ⟨_, rfl, rfl⟩⟩
  exact Vector.getElem?_set_self k.isLt

/-! ### `tick` (R210) -/

theorem decrement_of_ne_zero {b : Byte} (h : b.toNat ≠ 0) : (decrement b).toNat + 1 = b.toNat := by
  rw [toNat_decrement]
  omega

theorem decrement_of_eq_zero {b : Byte} (h : b.toNat = 0) : (decrement b).toNat = 0 := by
  rw [toNat_decrement, h]

/-- Settles O54: each timer is decremented by itself, and with both put back the state is the one before. -/
theorem tickDecrementsEachTimer : Obligations.TickDecrementsEachTimer := fun s =>
  ⟨s.tick, rfl, decrement_of_ne_zero, decrement_of_eq_zero, decrement_of_ne_zero, decrement_of_eq_zero, rfl,
    onlyPc_refl s⟩

/-! ### `fb_read` (R213) -/

/-- The on/off values of one display row, column 0 first. -/
def rowPixels (row : BitVec 64) : List Bool := (List.range Config.dispW).map row.getMsbD

theorem State.fbRead_eq_map_rowPixels (s : State) : s.fbRead = s.fb.toList.map rowPixels := rfl

theorem length_rowPixels (row : BitVec 64) : (rowPixels row).length = 64 := by
  simp [rowPixels]

theorem getElem?_rowPixels (row : BitVec 64) (c : Fin 64) : (rowPixels row)[c.val]? = some (row.getMsbD c) := by
  simp [rowPixels]

theorem State.getElem?_fbRead (s : State) (r : Fin 32) : s.fbRead[r.val]? = some (rowPixels s.fb[r]) := by
  simp [State.fbRead_eq_map_rowPixels]

/-- Settles O56: row `r` of the view is the 64 pixels of display row `r`. -/
theorem fbReadReturnsEveryPixel : Obligations.FbReadReturnsEveryPixel := fun s =>
  ⟨rfl, by simp [State.fbRead_eq_map_rowPixels], fun r c =>
    ⟨_, s.getElem?_fbRead r, length_rowPixels _, getElem?_rowPixels _ c⟩⟩

end Sys2Proof.Machine
end

section
/-! SUPPORT and the statements of 70_reset_and_hazards.md (R230 to R233): the state after `reset`, and the bytes that
`load` places over it. -/

namespace Sys2Proof.Machine

/-! ### `reset` (R230, R41) -/

@[simp] theorem State.reg_resetEvent (s : State) (r : Reg) : s.resetEvent.reg r = 0 := by
  simp [State.reg]

/-- Memory after a reset is the font and then zeros. -/
@[simp] theorem State.byte_resetEvent (s : State) (a : Nat) : s.resetEvent.byte a = font.getD a 0 := rfl

/-- Settles O57: each register, stack entry and pixel is a constant of `reset`; the keys and the model's own fields are
those of the state before. -/
theorem resetEventClearsAllButKeys : Obligations.ResetEventClearsAllButKeys := fun s =>
  ⟨s.resetEvent, rfl, s.reg_resetEvent, rfl, rfl, fun k => by simp, rfl, rfl, rfl, s.byte_resetEvent,
    pixel_blankBitmap, rfl, rfl, rfl, rfl, rfl⟩

/-! ### `load` (R232, R233) -/

/-- What `load` keeps of an image has its bytes at their places. -/
theorem getD_take_progMax {image : List Byte} {k : Nat} (h : k < Config.progMax) :
    (image.take Config.progMax).getD k 0 = image.getD k 0 := by
  simp only [List.getD_eq_getElem?_getD, List.getElem?_take_of_lt h]

/-- The image's bytes stand where they fit, and every other address is as after `reset`. -/
theorem State.byte_load (s : State) (image : List Byte) (a : Nat) :
    (s.load image).byte a =
      if 0x200 ≤ a ∧ a < 0x200 + min image.length 3584 then image.getD (a - 0x200) 0 else font.getD a 0 := by
  have hread := Memory.read_writeBytes Memory.wf_nil (image_fits image) a
  rw [List.length_take, Nat.min_comm] at hread
  refine hread.trans (ite_congr rfl (fun hin => getD_take_progMax ?_) fun _ => rfl)
  simp only [Config.progBase, Config.progMax] at hin ⊢
  omega

/-- `load` differs from `reset` in memory alone. -/
theorem State.load_with_reset_mem (s : State) (image : List Byte) :
    { s.load image with mem := s.resetEvent.mem } = s.resetEvent := rfl

/-- Settles O58: the two clauses on addresses are the two cases of the byte after `load`. -/
theorem loadPlacesImage : Obligations.LoadPlacesImage := by
  intro s image
  refine ⟨s.load image, rfl, fun k hk => ?_, fun a ha => ?_, s.resetEvent, rfl, s.load_with_reset_mem image⟩
  · rw [s.byte_load, if_pos (by omega), Nat.add_sub_cancel_left]
  · rw [s.byte_load, if_neg (by omega)]

end Sys2Proof.Machine
end
